-- ==== Sys2Proof/Word.lean ====
section
/-! DEFINITION. The machine word: one signed 64-bit integer (00_scope.md R7). -/

namespace Sys2Proof

/-- `Int64` of the spec (R7): every memory word, operand value, input value, output value, the program counter and the
relative base. It is kept as 64 bits and READ AS A SIGNED INTEGER through `BitVec.toInt`; the arithmetic of the rules is
done on those integers, exactly (R12), and comes back through `Machine.fits64` and `Machine.wrap64`.
(DEDUCED, log entry 1: safe.) -/
abbrev Word := BitVec 64

end Sys2Proof
end

