-- ==== Sys2Proof/Config.lean ====
section
/-! DEFINITION. The implementation parameters the spec leaves to a model (00_scope.md section 3, R8 to R10). -/

namespace Sys2Proof

/-- `OVERFLOW_POLICY` (R9, D1): what ADD, MUL and ADJUST-BASE do when the exact result is outside `Int64`. -/
inductive OverflowPolicy where
  /-- raise `ArithmeticOverflow` and commit nothing (the default) -/
  | fault
  /-- reduce the result modulo 2^64 -/
  | wrap
  deriving DecidableEq, Repr

/-- `EXTRA_DIGIT_POLICY` (R10, D5): what the decoder does with a non-zero digit above the mode digits. -/
inductive ExtraDigitPolicy where
  /-- raise `InvalidAddressingMode` (the default) -/
  | fault
  /-- ignore the digit -/
  | ignore
  deriving DecidableEq, Repr

/-- The parameters of one instance. They are fixed when the instance is created and no step and no host command writes
them. They stand in the state (DESIGN CHOICE, log entry 3: safe), so a statement over every state is a statement over
every value of the parameters. -/
structure Params where
  /-- `MAX_ADDR` (R8, D2): the largest memory address, in 0 .. 2^63 - 1. -/
  maxAddr : Fin (2 ^ 63)
  /-- `OVERFLOW_POLICY` (R9). -/
  overflow : OverflowPolicy
  /-- `EXTRA_DIGIT_POLICY` (R10). -/
  extraDigit : ExtraDigitPolicy
  deriving DecidableEq, Repr

/-- The defaults of R8, R9 and R10. -/
def Params.default : Params :=
  { maxAddr := ⟨2 ^ 63 - 1, by decide⟩, overflow := .fault, extraDigit := .fault }

end Sys2Proof
end

