-- ==== Sys2Proof/Syntax.lean ====
section
/-! DEFINITION. The instructions, one constructor per row of spec/opcode_table.json (30_encoding.md R57 to R59). -/

namespace Sys2Proof

/-- The addressing mode of one parameter (R54, R58). The digits 3 to 9 are illegal on every parameter; they stay in the
instruction, because the fault they raise comes only after the faults of the parameters before (40_decode_and_operands.md
R78). -/
inductive Mode where
  /-- digit 0 -/
  | position
  /-- digit 1; illegal on a write target -/
  | immediate
  /-- digit 2 -/
  | relative
  /-- digit `3 + d`: an illegal mode digit (R60) -/
  | reserved (d : Fin 7)
  deriving DecidableEq, Repr

/-- One parameter: its mode and its parameter word, a whole word (R58). -/
structure Operand where
  mode : Mode
  word : Word
  deriving DecidableEq, Repr

/-- The ten instruction ids as names (R4, R59). -/
inductive Opcode where
  | add | mul | input | output | jumpIfTrue | jumpIfFalse | lessThan | equals | adjustBase | halt
  deriving DecidableEq, Repr

/-- The ten instructions with their operands in declaration order: `a` and `b` are read operands, `t` is the write
target, always the last parameter (R57, R59). -/
inductive Instr where
  /-- ADD (id 1) -/
  | add (a b t : Operand)
  /-- MUL (id 2) -/
  | mul (a b t : Operand)
  /-- IN (id 3) -/
  | input (t : Operand)
  /-- OUT (id 4) -/
  | output (a : Operand)
  /-- JUMP-IF-TRUE (id 5) -/
  | jumpIfTrue (a b : Operand)
  /-- JUMP-IF-FALSE (id 6) -/
  | jumpIfFalse (a b : Operand)
  /-- LESS-THAN (id 7) -/
  | lessThan (a b t : Operand)
  /-- EQUALS (id 8) -/
  | equals (a b t : Operand)
  /-- ADJUST-BASE (id 9) -/
  | adjustBase (a : Operand)
  /-- HALT (id 99) -/
  | halt
  deriving DecidableEq, Repr

end Sys2Proof
end

