-- ==== Sys2Proof/WellFormed.lean ====
section
/-! DEFINITION. Which instructions are legal: a legal mode on every parameter (30_encoding.md R58, R60). -/

namespace Sys2Proof

/-- A read operand takes modes 0, 1 and 2 (R58). -/
def Operand.legalRead (o : Operand) : Bool :=
  match o.mode with
  | .position | .immediate | .relative => true
  | .reserved _ => false

/-- A write target takes modes 0 and 2; mode 1 is illegal (R58, R60). -/
def Operand.legalTarget (o : Operand) : Bool :=
  match o.mode with
  | .position | .relative => true
  | .immediate | .reserved _ => false

/-- A legal instruction: "an id with a legal mode for each parameter" (R65). -/
def Instr.wellFormed : Instr → Bool
  | .add a b t => a.legalRead && b.legalRead && t.legalTarget
  | .mul a b t => a.legalRead && b.legalRead && t.legalTarget
  | .input t => t.legalTarget
  | .output a => a.legalRead
  | .jumpIfTrue a b => a.legalRead && b.legalRead
  | .jumpIfFalse a b => a.legalRead && b.legalRead
  | .lessThan a b t => a.legalRead && b.legalRead && t.legalTarget
  | .equals a b t => a.legalRead && b.legalRead && t.legalTarget
  | .adjustBase a => a.legalRead
  | .halt => true

end Sys2Proof
end

