-- ==== Sys2Proof/Decode.lean ====
section
/-! DEFINITION. The decimal decoder (30_encoding.md, 40_decode_and_operands.md R69, R70), the encoder of R64, and the
host's view of a table row. -/

namespace Sys2Proof

/-- The instruction id (R59). -/
def Opcode.id : Opcode → Nat
  | .add => 1
  | .mul => 2
  | .input => 3
  | .output => 4
  | .jumpIfTrue => 5
  | .jumpIfFalse => 6
  | .lessThan => 7
  | .equals => 8
  | .adjustBase => 9
  | .halt => 99

/-- The opcode map (R59): an id not in the table has no instruction. -/
def Opcode.ofId (n : Nat) : Option Opcode :=
  if n = 1 then some .add
  else if n = 2 then some .mul
  else if n = 3 then some .input
  else if n = 4 then some .output
  else if n = 5 then some .jumpIfTrue
  else if n = 6 then some .jumpIfFalse
  else if n = 7 then some .lessThan
  else if n = 8 then some .equals
  else if n = 9 then some .adjustBase
  else if n = 99 then some .halt
  else none

/-- `NPARAMS[id]`, the number N of parameter words (R51, R59). -/
def Opcode.nparams : Opcode → Nat
  | .add | .mul | .lessThan | .equals => 3
  | .jumpIfTrue | .jumpIfFalse => 2
  | .input | .output | .adjustBase => 1
  | .halt => 0

/-- The mode digit of a mode (R54, R58). -/
def Mode.digit : Mode → Nat
  | .position => 0
  | .immediate => 1
  | .relative => 2
  | .reserved d => 3 + d.val

/-- The mode a decimal digit selects (R58). -/
def Mode.ofDigit (d : Fin 10) : Mode :=
  if d.val = 0 then .position
  else if d.val = 1 then .immediate
  else if d.val = 2 then .relative
  else .reserved ⟨d.val - 3, by omega⟩

/-- `digit(w, j)` of a non-negative integer: its j-th decimal digit, 0 above the written number (R13, R55). -/
def decimalDigit (n j : Nat) : Fin 10 := ⟨n / 10 ^ j % 10, Nat.mod_lt _ (by decide)⟩

/-- `w div 10^(N+2)`: the digits above the mode digits (R56). -/
def extraDigits (op : Opcode) (n : Nat) : Nat := n / 10 ^ (op.nparams + 2)

def Instr.opcode : Instr → Opcode
  | .add .. => .add
  | .mul .. => .mul
  | .input _ => .input
  | .output _ => .output
  | .jumpIfTrue .. => .jumpIfTrue
  | .jumpIfFalse .. => .jumpIfFalse
  | .lessThan .. => .lessThan
  | .equals .. => .equals
  | .adjustBase _ => .adjustBase
  | .halt => .halt

/-- The parameters in declaration order (R57). -/
def Instr.operands : Instr → List Operand
  | .add a b t => [a, b, t]
  | .mul a b t => [a, b, t]
  | .input t => [t]
  | .output a => [a]
  | .jumpIfTrue a b => [a, b]
  | .jumpIfFalse a b => [a, b]
  | .lessThan a b t => [a, b, t]
  | .equals a b t => [a, b, t]
  | .adjustBase a => [a]
  | .halt => []

/-- The length in words, `1 + N` (R51, R61). -/
def Instr.length (i : Instr) : Nat := 1 + i.opcode.nparams

/-- The instruction of an id from its parameters, the i-th (1-based) given by `o i` (R57). -/
def Instr.build (op : Opcode) (o : Nat → Operand) : Instr :=
  match op with
  | .add => .add (o 1) (o 2) (o 3)
  | .mul => .mul (o 1) (o 2) (o 3)
  | .input => .input (o 1)
  | .output => .output (o 1)
  | .jumpIfTrue => .jumpIfTrue (o 1) (o 2)
  | .jumpIfFalse => .jumpIfFalse (o 1) (o 2)
  | .lessThan => .lessThan (o 1) (o 2) (o 3)
  | .equals => .equals (o 1) (o 2) (o 3)
  | .adjustBase => .adjustBase (o 1)
  | .halt => .halt

/-- Why an opcode word decodes to no instruction. -/
inductive Reject where
  /-- a negative word, or an id with no handler (R53, R60, R69): `UnknownOpcode{word}` -/
  | unknownOpcode (w : Word)
  /-- non-zero digits `value` above the mode digits of `op`, under `EXTRA_DIGIT_POLICY = fault` (R56, R70):
  `InvalidAddressingMode{param: 0, digit: value}`, unless the IN pause comes first -/
  | extraDigits (op : Opcode) (value : Nat)
  deriving DecidableEq, Repr

/-- Parameter `i` (1-based) of the instruction whose opcode word has the value `n`: its mode is decimal digit `i + 1` (R54)
and its parameter word is the i-th word after the opcode word (R51). A word the list does not have reads 0, as unwritten
memory does (R33). -/
def operandAt (n : Nat) (ws : List Word) (i : Nat) : Operand :=
  { mode := Mode.ofDigit (decimalDigit n (i + 1)), word := ws.getD i 0 }

/-- The decoder (R69, R70), total on every list of words: the opcode word first, its parameter words after it; words beyond
the instruction's length are not looked at (R61). The id is read only of a non-negative word (R53). Mode digits are not
judged here: R78 has the resolver judge each in its turn. -/
def decode (policy : ExtraDigitPolicy) (ws : List Word) : Except Reject Instr :=
  let w := ws.getD 0 0
  if w.toInt < 0 then .error (.unknownOpcode w)
  else
    match Opcode.ofId (w.toNat % 100) with
    | none => .error (.unknownOpcode w)
    | some op =>
      if extraDigits op w.toNat ≠ 0 ∧ policy = .fault then .error (.extraDigits op (extraDigits op w.toNat))
      else .ok (Instr.build op (operandAt w.toNat ws))

/-- `scale * m1 + 10 * scale * m2 + …`, the mode digits of R64. -/
def modeDigits (scale : Nat) : List Operand → Nat
  | [] => 0
  | o :: os => scale * o.mode.digit + modeDigits (10 * scale) os

/-- `w = id + 100*m1 + 1000*m2 + 10000*m3` (R64). -/
def opcodeValue (i : Instr) : Nat := i.opcode.id + modeDigits 100 i.operands

/-- The words an instruction is made of in memory, legal or not: the opcode word by the formula of R64, then the parameter
words in order (R51). A host can store the words of an illegal one; the encoder does not make them. -/
def instrWords (i : Instr) : List Word := BitVec.ofNat 64 (opcodeValue i) :: i.operands.map Operand.word

/-- The encoder (R64): the words of a legal instruction. It refuses an immediate write target, and a mode digit 3 to 9, which
no operand form of the notation denotes (R60, R63; DEDUCED, log entry 23: safe). -/
def encode (i : Instr) : Option (List Word) := if i.wellFormed then some (instrWords i) else none

/-- The longest instruction has four words (R51, R59). -/
def maxInstrWords : Nat := 4

/-- The four 64-bit words of a bit string of `nbits` bits, the first word its lowest 64 bits, every bit above `nbits` zero.
(DESIGN CHOICE, log entry 16: the spec has no bits; a word is numbered as its two's-complement value.) -/
def wordsOfBits (nbits w : Nat) : List Word :=
  (List.range maxInstrWords).map fun k => BitVec.ofNat 64 (w % 2 ^ nbits / 2 ^ (64 * k))

/-- The instruction the decoder reads from a table row's bits, under the default `EXTRA_DIGIT_POLICY`. -/
def decodeTableWord (nbits w : Nat) : Option Instr :=
  match decode Params.default.extraDigit (wordsOfBits nbits w) with
  | .ok i => some i
  | .error _ => none

end Sys2Proof
end

