-- ==== Sys2Proof/Machine/State.lean ====
section
/-! DEFINITION. The state of one instance (10_state.md), the records a fault leaves in it, and the state after reset. -/

namespace Sys2Proof.Machine

/-- The three instructions that can overflow, as `ArithmeticOverflow` names them (60_exceptions.md R117). -/
inductive ArithOp where
  | add | mul | adjustBase
  deriving DecidableEq, Repr

/-- The execution faults with the `info` each records (60_exceptions.md R117). -/
inductive Cause where
  /-- code 2: a negative opcode word, or an id with no handler -/
  | unknownOpcode (word : Word)
  /-- code 3: an illegal mode digit on parameter `param`; `param = 0` for extra digits, with `digit` their whole value -/
  | invalidAddressingMode (param digit : Nat)
  /-- code 7: an address outside `0 .. MAX_ADDR`, or a sequential next PC outside `Int64`; exact over the integers -/
  | addressOutOfRange (addr : Int)
  /-- code 8: the exact result of `op` on `a` and `b` is outside `Int64` under `OVERFLOW_POLICY = fault` -/
  | arithmeticOverflow (op : ArithOp) (a b : Word)
  deriving DecidableEq, Repr

/-- The fault record (10_state.md R24): the cause with its info, and the `pc0` of the faulting instruction. -/
structure FaultRecord where
  cause : Cause
  pc : Word
  deriving DecidableEq, Repr

/-- `MEM` (10_state.md R16): (address, word) pairs in one canonical form, see `Memory.wf`. An address not listed reads 0
(R16, R33). The cells hold words, the smallest unit the spec addresses (20_memory.md R32, R37; log entry 2: safe). -/
abbrev Memory := List (Nat × Word)

/-- The canonical form: addresses strictly rising, and no entry equal to what an unlisted address reads as (0). Whether a
slot was created is not observable (R36), so equal memories are equal lists. -/
abbrev Memory.wf (m : Memory) : Prop :=
  m.Pairwise (fun c d => c.1 < d.1) ∧ ∀ c ∈ m, c.2 ≠ 0

/-- Every listed address lies in `0 .. maxAddr`. -/
abbrev Memory.within (m : Memory) (maxAddr : Nat) : Prop := ∀ c ∈ m, c.1 ≤ maxAddr

/-- All of the state one instance holds (10_state.md section 1, R15 to R28), and its parameters. -/
structure State where
  /-- the parameters the instance was created with (00_scope.md R8 to R10); never written -/
  params : Params
  /-- `MEM` (R16) -/
  mem : Memory
  /-- `ORIGIN` (R17): the words the instance was loaded with, written by LOAD alone -/
  origin : List Word
  /-- `PC` (R18): any `Int64`; checked when it is fetched from -/
  pc : Word
  /-- `RB` (R21): the relative base -/
  rb : Word
  /-- `HALTED` (R22) -/
  halted : Bool
  /-- `FAULT` (R24): the sticky record of the last execution fault -/
  fault : Option FaultRecord
  /-- `INQ` (R25), its head first -/
  inq : List Word
  /-- `OUTLOG` (R26): (position, value) pairs, oldest first -/
  outlog : List (Word × Word)
  deriving DecidableEq, Repr

/-- Why `step` runs no instruction: the guard of every execution command (46_host_control.md R105). An instruction that
raises an execution fault is NOT here: it answers the next state with `FAULT` written (60_exceptions.md R116). -/
inductive Fault where
  /-- raised by the guard when `HALTED` is true (R22, R105): the hardware answers `AlreadyHalted` and changes nothing;
  safe, since no instruction is executed -/
  | alreadyHalted
  /-- raised by the guard when `FAULT` holds `record` (R105, R122): the hardware answers `Faulted(FAULT)` and changes
  nothing; safe, since no instruction is executed -/
  | faulted (record : FaultRecord)
  deriving DecidableEq, Repr

/-- Refusals. No instruction of this model is refused. -/
inductive Refusal where
  /-- raised by an arm of `exec` whose instruction has no meaning yet; safe, since nothing can be proved of it. No arm of
  this model raises it. -/
  | notModelled (mnemonic : String)
  deriving DecidableEq, Repr

/-- The state right after reset (10_state.md R30): `PC` 0, `RB` 0, not halted, no fault, empty queue and log, and memory
equal to the origin snapshot. The spec creates an instance only by LOAD (R132); this is the instance LOAD_WORDS makes of
the empty word list with the default parameters (R98; DESIGN CHOICE, log entry 11). -/
def State.reset : State :=
  { params := Params.default, mem := [], origin := [], pc := 0, rb := 0, halted := false, fault := none, inq := [],
    outlog := [] }

end Sys2Proof.Machine
end

