-- ==== Sys2Proof/Machine/Flags.lean ====
section
/-! DEFINITION. The core has no flags (10_state.md R23). Here stands what other machines put into flags: whether an exact
result fits a word, what an overflow does, the word a comparison writes, and the test of a jump. -/

namespace Sys2Proof.Machine

/-- `fits64(v)` (00_scope.md R12). -/
def fits64 (v : Int) : Bool := decide (-(2 ^ 63) ≤ v ∧ v ≤ 2 ^ 63 - 1)

/-- `wrap64(v)` (00_scope.md R12): the `Int64` value congruent to `v` modulo 2^64. -/
def wrap64 (v : Int) : Word := BitVec.ofInt 64 v

/-- The integer law of ADD, MUL and ADJUST-BASE (41_arithmetic.md R82): the exact result where it fits; where it does not,
`ArithmeticOverflow{op, a, b}` or the wrapped result, as `OVERFLOW_POLICY` says. -/
def narrow (p : Params) (op : ArithOp) (a b : Word) (exact : Int) : Except Cause Word :=
  if fits64 exact then .ok (wrap64 exact)
  else
    match p.overflow with
    | .fault => .error (.arithmeticOverflow op a b)
    | .wrap => .ok (wrap64 exact)

/-- The result of a comparison: the word 1 where the relation holds, else the word 0 (44_comparison.md R91). -/
def truthWord (holds : Bool) : Word := if holds then 1 else 0

/-- Signed comparison (44_comparison.md R91, R92). -/
def lessThanWord (a b : Word) : Word := truthWord (decide (a.toInt < b.toInt))

/-- Equality of values (44_comparison.md R91, R93). -/
def equalsWord (a b : Word) : Word := truthWord (decide (a.toInt = b.toInt))

/-- The test of the conditional jumps: every non-zero value is true, negative values included (43_jump.md R89, R90). -/
def nonZero (a : Word) : Bool := decide (a.toInt ≠ 0)

end Sys2Proof.Machine
end

