-- ==== Sys2Proof/Machine/Ops.lean ====
section
/-! DEFINITION. The named operations over memory and registers: memory access, the address check, the sequential PC, the
effect record and its commit, the guard, raising an execution fault, and fetching an instruction's words. -/

namespace Sys2Proof.Machine

/-- `MemRead(a, 1)` (20_memory.md R33): the word at `a`, 0 if none is stored. -/
def Memory.read (m : Memory) (a : Nat) : Word :=
  match m with
  | [] => 0
  | (b, v) :: rest => if a = b then v else Memory.read rest a

/-- `MemWrite(a, 1, v)` (20_memory.md R34), keeping the canonical form: writing 0 leaves no entry. -/
def Memory.write (m : Memory) (a : Nat) (v : Word) : Memory :=
  match m with
  | [] => if v = 0 then [] else [(a, v)]
  | (b, u) :: rest =>
    if a < b then (if v = 0 then (b, u) :: rest else (a, v) :: (b, u) :: rest)
    else if a = b then (if v = 0 then rest else (a, v) :: rest)
    else (b, u) :: Memory.write rest a v

/-- The memory that holds the words `ws` from address `a` upwards and 0 elsewhere. -/
def Memory.ofWordsFrom (a : Nat) : List Word → Memory
  | [] => []
  | w :: ws => if w = 0 then Memory.ofWordsFrom (a + 1) ws else (a, w) :: Memory.ofWordsFrom (a + 1) ws

/-- A loaded program: word k at address k (20_memory.md R42, 10_state.md R30). -/
def Memory.ofWords (ws : List Word) : Memory := Memory.ofWordsFrom 0 ws

/-- `0 ≤ a ≤ MAX_ADDR`, for an address computed exactly over the integers (20_memory.md R35). -/
def inRange (p : Params) (a : Int) : Bool := decide (0 ≤ a ∧ a ≤ (p.maxAddr.val : Int))

/-- `CheckAddr(a)` (20_memory.md R35): the address, or `AddressOutOfRange{a}`. -/
def checkAddr (p : Params) (a : Int) : Except Cause Nat :=
  if inRange p a then .ok a.toNat else .error (.addressOutOfRange a)

/-- `SeqPC(pc0 + 1 + n)` (40_decode_and_operands.md R76): the sequential next PC of an instruction with `n` parameters,
computed over the integers, or `AddressOutOfRange` when it does not fit `Int64`. -/
def seqPC (s : State) (n : Nat) : Except Cause Word :=
  let next := s.pc.toInt + 1 + n
  if fits64 next then .ok (wrap64 next) else .error (.addressOutOfRange next)

/-- The effect record E of a handler (40_decode_and_operands.md R71). -/
structure Effect where
  /-- at most one memory write -/
  mem : Option (Nat × Word)
  /-- the new `PC` -/
  pc : Word
  /-- the new `RB` -/
  rb : Word
  /-- the new `HALTED` -/
  halted : Bool
  /-- remove the head of `INQ` -/
  deq : Bool
  /-- the pair to append to `OUTLOG` -/
  out : Option (Word × Word)
  deriving DecidableEq, Repr

/-- The record of a handler that names only the new `PC`: every other field keeps its value (R71). -/
def keepBut (s : State) (pc : Word) : Effect :=
  { mem := none, pc := pc, rb := s.rb, halted := s.halted, deq := false, out := none }

/-- `Commit(E)` (40_decode_and_operands.md R77): all of the effects at once. -/
def commit (s : State) (e : Effect) : State :=
  { s with
    mem := match e.mem with
      | none => s.mem
      | some (a, v) => Memory.write s.mem a v
    pc := e.pc
    rb := e.rb
    halted := e.halted
    inq := if e.deq then s.inq.tail else s.inq
    outlog := match e.out with
      | none => s.outlog
      | some pair => s.outlog ++ [pair] }

/-- TAKING AN EXECUTION FAULT (60_exceptions.md R116, R121): nothing is committed and `FAULT` records the cause, its info
and `pc0`. No vector, no mode and no other saved state exists; there is no return from it but RESET and LOAD (R122, R123).
That the rest of the state is kept is the spec's own choice (D6, U3; log entry 6). -/
def raise (s : State) (c : Cause) : State := { s with fault := some { cause := c, pc := s.pc } }

/-- The end of an instruction: its effects are committed, or its fault is taken. -/
def complete (s : State) (r : Except Cause Effect) : Host.Outcome State Fault Refusal :=
  match r with
  | .ok e => .next (commit s e)
  | .error c => .next (raise s c)

/-- `pause` (42_io.md R85): the step ends and nothing at all changes. -/
def pause (s : State) : Host.Outcome State Fault Refusal := .next s

/-- The guard of every execution command (46_host_control.md R105). -/
def guardFault (s : State) : Option Fault :=
  if s.halted then some .alreadyHalted
  else
    match s.fault with
    | some r => some (.faulted r)
    | none => none

/-- FETCH (40_decode_and_operands.md R68): `PC` is checked, and the words at `pc0 .. pc0 + 3` are read. A parameter word's
own address is checked only when its turn comes, in `operandWord` (R73, R74): reading has no effect (R40), and a word whose
check fails is never used (log entry 17: safe). -/
def fetch (s : State) : Except Cause (List Word) :=
  match checkAddr s.params s.pc.toInt with
  | .error c => .error c
  | .ok a => .ok ((List.range maxInstrWords).map fun k => Memory.read s.mem (a + k))

/-- An opcode word that decodes to no instruction: `UnknownOpcode` (R69), or `InvalidAddressingMode` for extra digits (R70),
which comes after the pause of an IN with an empty queue (R78, 42_io.md R85). -/
def rejectOutcome (s : State) (e : Reject) : Host.Outcome State Fault Refusal :=
  match e with
  | .unknownOpcode w => .next (raise s (.unknownOpcode w))
  | .extraDigits op value =>
    if op = .input ∧ s.inq = [] then pause s else .next (raise s (.invalidAddressingMode 0 value))

/-- "Paused awaiting input" as a predicate of the state (10_state.md R28): the opcode word at `PC` is non-negative, its id
is 3, and `INQ` is empty. -/
def awaitingInput (s : State) : Bool :=
  match fetch s with
  | .error _ => false
  | .ok ws =>
    let w := ws.getD 0 0
    decide (0 ≤ w.toInt) && decide (w.toNat % 100 = Opcode.id .input) && s.inq.isEmpty

/-- The words `ws` stored from address `a` upwards, those whose address lies in `0 .. MAX_ADDR`. -/
def storeWords (p : Params) (m : Memory) (a : Int) : List Word → Memory
  | [] => m
  | w :: ws => storeWords p (if inRange p a then Memory.write m a.toNat w else m) (a + 1) ws

/-- The numeric label of an execution fault (60_exceptions.md R117, D10). -/
def Cause.code : Cause → Nat
  | .unknownOpcode _ => 2
  | .invalidAddressingMode _ _ => 3
  | .addressOutOfRange _ => 7
  | .arithmeticOverflow _ _ _ => 8

end Sys2Proof.Machine
end

