-- ==== Sys2Proof/Machine/Operands.lean ====
section
/-! DEFINITION. The addressing-mode resolver (40_decode_and_operands.md section 3). -/

namespace Sys2Proof.Machine

/-- The word of parameter `i`: the address `pc0 + i` is checked first (R73, R74). -/
def operandWord (s : State) (i : Nat) (o : Operand) : Except Cause Word :=
  match checkAddr s.params (s.pc.toInt + i) with
  | .error c => .error c
  | .ok _ => .ok o.word

/-- The effective address over the integers, never wrapped (R75): `k` in position mode, `k + RB` in relative mode. -/
def effectiveAddr (s : State) (k : Word) (relative : Bool) : Int :=
  if relative then k.toInt + s.rb.toInt else k.toInt

/-- The value at an effective address. -/
def readAt (s : State) (a : Int) : Except Cause Word :=
  match checkAddr s.params a with
  | .error c => .error c
  | .ok n => .ok (Memory.read s.mem n)

/-- `ReadOperand(i)` (R73): "fetch next operand as a value". -/
def readOperand (s : State) (i : Nat) (o : Operand) : Except Cause Word :=
  match operandWord s i o with
  | .error c => .error c
  | .ok k =>
    match o.mode with
    | .position => readAt s (effectiveAddr s k false)
    | .immediate => .ok k
    | .relative => readAt s (effectiveAddr s k true)
    | .reserved d => .error (.invalidAddressingMode i (Mode.digit (.reserved d)))

/-- `WriteTarget(i)` (R74): "fetch next operand as a write target"; it answers an address and writes nothing. -/
def writeTarget (s : State) (i : Nat) (o : Operand) : Except Cause Nat :=
  match operandWord s i o with
  | .error c => .error c
  | .ok k =>
    match o.mode with
    | .position => checkAddr s.params (effectiveAddr s k false)
    | .immediate => .error (.invalidAddressingMode i (Mode.digit .immediate))
    | .relative => checkAddr s.params (effectiveAddr s k true)
    | .reserved d => .error (.invalidAddressingMode i (Mode.digit (.reserved d)))

/-- Two read operands, the first before the second (R72, R78). -/
def readTwo (s : State) (a b : Operand) : Except Cause (Word × Word) :=
  match readOperand s 1 a with
  | .error c => .error c
  | .ok x =>
    match readOperand s 2 b with
    | .error c => .error c
    | .ok y => .ok (x, y)

/-- The format `F3RRW` (30_encoding.md R57): parameters 1 and 2 are read, parameter 3 is the write target; then the handler
`f` computes the word to write, and `PC` goes on by four words. A fault of `f` comes before one of `SeqPC` (R78). -/
def readReadWrite (s : State) (a b t : Operand) (f : Word → Word → Except Cause Word) : Except Cause Effect :=
  match readTwo s a b with
  | .error c => .error c
  | .ok (x, y) =>
    match writeTarget s 3 t with
    | .error c => .error c
    | .ok d =>
      match f x y with
      | .error c => .error c
      | .ok r =>
        match seqPC s 3 with
        | .error c => .error c
        | .ok pc => .ok { keepBut s pc with mem := some (d, r) }

/-- The format `F2RR` (R57): both operands are read; where `taken` holds of the first, `PC` becomes the second, unchecked
and without `SeqPC` (43_jump.md R88), else it goes on by three words. -/
def jumpWhen (s : State) (a b : Operand) (taken : Word → Bool) : Except Cause Effect :=
  match readTwo s a b with
  | .error c => .error c
  | .ok (x, y) =>
    if taken x then .ok (keepBut s y)
    else
      match seqPC s 2 with
      | .error c => .error c
      | .ok pc => .ok (keepBut s pc)

end Sys2Proof.Machine
end

