-- ==== Sys2Proof/Machine/Arithmetic.lean ====
section
/-! DEFINITION. ADD and MUL (41_arithmetic.md). -/

namespace Sys2Proof.Machine

/-- ADD (R83): `t := a + b`, exact over the integers, overflow as R82 says. -/
def execAdd (a b t : Operand) (s : State) : Host.Outcome State Fault Refusal :=
  complete s (readReadWrite s a b t fun x y => narrow s.params .add x y (x.toInt + y.toInt))

/-- MUL (R84): `t := a * b`, exact over the integers, overflow as R82 says. -/
def execMul (a b t : Operand) (s : State) : Host.Outcome State Fault Refusal :=
  complete s (readReadWrite s a b t fun x y => narrow s.params .mul x y (x.toInt * y.toInt))

end Sys2Proof.Machine
end

