-- ==== Sys2Proof/Machine/Comparison.lean ====
section
/-! DEFINITION. LESS-THAN and EQUALS (44_comparison.md). -/

namespace Sys2Proof.Machine

/-- LESS-THAN (R92): `t := 1` if `a < b`, else 0; signed. -/
def execLessThan (a b t : Operand) (s : State) : Host.Outcome State Fault Refusal :=
  complete s (readReadWrite s a b t fun x y => .ok (lessThanWord x y))

/-- EQUALS (R93): `t := 1` if `a = b`, else 0. -/
def execEquals (a b t : Operand) (s : State) : Host.Outcome State Fault Refusal :=
  complete s (readReadWrite s a b t fun x y => .ok (equalsWord x y))

end Sys2Proof.Machine
end

