-- ==== Sys2Proof/Machine/Control.lean ====
section
/-! DEFINITION. HALT and ADJUST-BASE (45_control.md). -/

namespace Sys2Proof.Machine

/-- The effects of HALT (R94); `PC` is left at `pc0 + 1`, a value the spec derives (U10, log entry 7). -/
def haltEffect (s : State) : Except Cause Effect :=
  match seqPC s 0 with
  | .error c => .error c
  | .ok pc => .ok { keepBut s pc with halted := true }

/-- HALT (R94): sets `HALTED`. -/
def execHalt (s : State) : Host.Outcome State Fault Refusal :=
  complete s (haltEffect s)

/-- The effects of ADJUST-BASE (R95): the operand is read with the old `RB`; overflow comes before `SeqPC` (R78). -/
def adjustEffect (s : State) (a : Operand) : Except Cause Effect :=
  match readOperand s 1 a with
  | .error c => .error c
  | .ok x =>
    match narrow s.params .adjustBase s.rb x (s.rb.toInt + x.toInt) with
    | .error c => .error c
    | .ok r =>
      match seqPC s 1 with
      | .error c => .error c
      | .ok pc => .ok { keepBut s pc with rb := r }

/-- ADJUST-BASE (R95): `RB := RB + a`. -/
def execAdjustBase (a : Operand) (s : State) : Host.Outcome State Fault Refusal :=
  complete s (adjustEffect s a)

end Sys2Proof.Machine
end

