-- ==== Sys2Proof/Machine/InputOutput.lean ====
section
/-! DEFINITION. IN and OUT (42_io.md). -/

namespace Sys2Proof.Machine

/-- The effects of IN once a value `v` is at the head of `INQ` (R86). -/
def takeInput (s : State) (t : Operand) (v : Word) : Except Cause Effect :=
  match writeTarget s 1 t with
  | .error c => .error c
  | .ok d =>
    match seqPC s 1 with
    | .error c => .error c
    | .ok pc => .ok { keepBut s pc with mem := some (d, v), deq := true }

/-- IN (R85, R86): with an empty queue the step pauses before its parameter is resolved; else the head of the queue goes to
the target and leaves the queue. -/
def execInput (t : Operand) (s : State) : Host.Outcome State Fault Refusal :=
  match s.inq with
  | [] => pause s
  | v :: _ => complete s (takeInput s t v)

/-- The effects of OUT (R87): the position emitted is `pc0`. -/
def emitOutput (s : State) (a : Operand) : Except Cause Effect :=
  match readOperand s 1 a with
  | .error c => .error c
  | .ok x =>
    match seqPC s 1 with
    | .error c => .error c
    | .ok pc => .ok { keepBut s pc with out := some (s.pc, x) }

/-- OUT (R87): append `(pc0, a)` to the output log. -/
def execOutput (a : Operand) (s : State) : Host.Outcome State Fault Refusal :=
  complete s (emitOutput s a)

end Sys2Proof.Machine
end

