-- ==== Sys2Proof/Machine/Jump.lean ====
section
/-! DEFINITION. JUMP-IF-TRUE and JUMP-IF-FALSE (43_jump.md). -/

namespace Sys2Proof.Machine

/-- JUMP-IF-TRUE (R89): to `b` when `a` is not zero. -/
def execJumpIfTrue (a b : Operand) (s : State) : Host.Outcome State Fault Refusal :=
  complete s (jumpWhen s a b nonZero)

/-- JUMP-IF-FALSE (R90): to `b` when `a` is zero. -/
def execJumpIfFalse (a b : Operand) (s : State) : Host.Outcome State Fault Refusal :=
  complete s (jumpWhen s a b fun x => !nonZero x)

end Sys2Proof.Machine
end

