-- ==== Sys2Proof/Machine/Dispatch.lean ====
section
/-! DEFINITION. The closed table from instruction to meaning (40_decode_and_operands.md R71). -/

namespace Sys2Proof.Machine

def exec (i : Instr) (s : State) : Host.Outcome State Fault Refusal :=
  match i with
  | .add a b t => Sys2Proof.Machine.execAdd a b t s
  | .mul a b t => Sys2Proof.Machine.execMul a b t s
  | .input t => Sys2Proof.Machine.execInput t s
  | .output a => Sys2Proof.Machine.execOutput a s
  | .jumpIfTrue a b => Sys2Proof.Machine.execJumpIfTrue a b s
  | .jumpIfFalse a b => Sys2Proof.Machine.execJumpIfFalse a b s
  | .lessThan a b t => Sys2Proof.Machine.execLessThan a b t s
  | .equals a b t => Sys2Proof.Machine.execEquals a b t s
  | .adjustBase a => Sys2Proof.Machine.execAdjustBase a s
  | .halt => Sys2Proof.Machine.execHalt s

end Sys2Proof.Machine
end

