-- ==== Sys2Proof/Machine/Cycle.lean ====
section
/-! DEFINITION. The instruction cycle `Step(s)` (40_decode_and_operands.md R66, R67), without the guard of the execution
commands. -/

namespace Sys2Proof.Machine

/-- `Step(s)` (R67): FETCH, DECODE, and the instruction's own stages. A fetch fault and an illegal opcode word take their
fault (R68 to R70). The spec calls it only when the guard passes. -/
def cycle (s : State) : Host.Outcome State Fault Refusal :=
  match fetch s with
  | .error c => .next (raise s c)
  | .ok ws =>
    match decode s.params.extraDigit ws with
    | .error e => rejectOutcome s e
    | .ok i => exec i s

/-- One instruction on behalf of an execution command: the guard (46_host_control.md R105), then `Step`. -/
def guardedCycle (s : State) : Host.Outcome State Fault Refusal :=
  match guardFault s with
  | some f => .fault f
  | none => cycle s

/-- The instruction bits `w` placed at `PC`, as the host's POKE would place them (46_host_control.md R102). -/
def placeFetchWords (s : State) (nbits w : Nat) : State :=
  { s with mem := storeWords s.params s.mem s.pc.toInt (wordsOfBits nbits w) }

end Sys2Proof.Machine
end

