-- ==== Sys2Proof/Machine/Step.lean ====
section
/-! DEFINITION. One step of the core. -/

namespace Sys2Proof.Machine

/-- One step: what the core does for `STEP`, and for each turn of a run command (46_host_control.md R105 to R109). A halted
or faulted instance executes nothing (R105). -/
def step (s : State) : Host.Outcome State Fault Refusal := guardedCycle s

/-- `s` with the instruction of bits `w` stored where `step` fetches next: at `PC` (log entries 11 and 16). -/
def State.withFetchWord (s : State) (nbits w : Nat) : State := placeFetchWords s nbits w

end Sys2Proof.Machine
end

