-- ==== Sys2Proof/Machine/HostPort.lean ====
section
/-! DEFINITION. The host port's commands on an existing instance (46_host_control.md): RESET, memory access, input, status,
the execution commands and the output queries. LOAD, which creates an instance, is in Machine/Load.lean. -/

namespace Sys2Proof.Machine

/-- What one `Step` did (40_decode_and_operands.md R66), read off the states around it. -/
inductive StepResult where
  /-- the instruction with this id executed -/
  | done (id : Nat)
  /-- an IN found the input queue empty; nothing changed -/
  | paused
  /-- the instruction raised an execution fault; `FAULT` holds the record -/
  | faulted (record : FaultRecord)
  /-- the model answered no next state: `Step` always does, so this is never reached -/
  | noNextState
  deriving DecidableEq, Repr

/-- The command errors (60_exceptions.md R118). None is recorded in state. -/
inductive CommandError where
  | alreadyHalted | noOutputYet | starvedForOutput | malformedProgramText | hostAddressOutOfRange
  deriving DecidableEq, Repr

/-- Their numeric labels (R118, D10). -/
def CommandError.code : CommandError → Nat
  | .alreadyHalted => 1
  | .noOutputYet => 4
  | .starvedForOutput => 5
  | .malformedProgramText => 6
  | .hostAddressOutOfRange => 9

/-- The record of READ_STATUS (R104). -/
structure Status where
  pc : Word
  rb : Word
  halted : Bool
  fault : Option FaultRecord
  inqLen : Nat
  deriving DecidableEq, Repr

/-- The values a command returns with `Ok` (R96). -/
inductive OkValue where
  | unit
  | word (v : Word)
  | status (st : Status)
  | instrId (id : Nat)
  | pair (pos value : Word)
  | bool (b : Bool)
  | pairs (l : List (Word × Word))
  deriving DecidableEq, Repr

/-- What a command returns (R96). -/
inductive Response where
  | ok (v : OkValue)
  | err (e : CommandError)
  | faulted (record : FaultRecord)
  | awaitingInput
  /-- the command is refused with no error the spec names: a word list longer than `MAX_ADDR + 1` (R98, D24; DESIGN CHOICE,
  log entry 13) -/
  | refused
  deriving DecidableEq, Repr

/-- RESET (R100): the state of 10_state.md R30 from the instance's own `ORIGIN`. -/
def hostReset (s : State) : Response × State :=
  (.ok .unit,
    { params := s.params, mem := Memory.ofWords s.origin, origin := s.origin, pc := 0, rb := 0, halted := false,
      fault := none, inq := [], outlog := [] })

/-- PEEK(a) (R101). -/
def hostPeek (a : Int) (s : State) : Response × State :=
  if inRange s.params a then (.ok (.word (Memory.read s.mem a.toNat)), s) else (.err .hostAddressOutOfRange, s)

/-- POKE(a, v) (R102). -/
def hostPoke (a : Int) (v : Word) (s : State) : Response × State :=
  if inRange s.params a then (.ok .unit, { s with mem := Memory.write s.mem a.toNat v })
  else (.err .hostAddressOutOfRange, s)

/-- QUEUE_INPUTS(v1, ..., vn) (R103): appended in that order. -/
def hostQueueInputs (vs : List Word) (s : State) : Response × State :=
  (.ok .unit, { s with inq := s.inq ++ vs })

/-- QUEUE_INPUT(v) (R103). -/
def hostQueueInput (v : Word) (s : State) : Response × State :=
  (.ok .unit, { s with inq := s.inq ++ [v] })

/-- READ_STATUS (R104). -/
def hostReadStatus (s : State) : Response × State :=
  (.ok (.status { pc := s.pc, rb := s.rb, halted := s.halted, fault := s.fault, inqLen := s.inq.length }), s)

/-- GET_LAST_OUTPUT (R110). -/
def hostGetLastOutput (s : State) : Response × State :=
  match s.outlog.getLast? with
  | some (pos, v) => (.ok (.pair pos v), s)
  | none => (.err .noOutputYet, s)

/-- GET_OUTPUTS (R111). -/
def hostGetOutputs (s : State) : Response × State := (.ok (.pairs s.outlog), s)

/-- The response of a guard that stops an execution command (R105). -/
def guardResponse (f : Fault) : Response :=
  match f with
  | .alreadyHalted => .err .alreadyHalted
  | .faulted r => .faulted r

/-- `Step(s)` with its outcome (40_decode_and_operands.md R66): paused where the state awaits input, which is a predicate of
the state (10_state.md R28); faulted where `FAULT` is set afterwards; else done, with the id of the opcode word at `PC`.
(DEDUCED, log entry 14: safe.) -/
def stepResult (s : State) : StepResult × State :=
  match cycle s with
  | .next s' =>
    if awaitingInput s then (.paused, s')
    else
      match s'.fault with
      | some r => (.faulted r, s')
      | none => (.done ((Memory.read s.mem s.pc.toInt.toNat).toNat % 100), s')
  | .fault _ => (.noNextState, s)
  | .refused _ => (.noNextState, s)

/-- STEP (R106): the guard, then one `Step`. -/
def hostStep (s : State) : Response × State :=
  match guardFault s with
  | some f => (guardResponse f, s)
  | none =>
    match stepResult s with
    | (.done id, s') => (.ok (.instrId id), s')
    | (.paused, s') => (.awaitingInput, s')
    | (.faulted r, s') => (.faulted r, s')
    | (.noNextState, s') => (.refused, s')

/-- The loop of a run command: `answer` says of a step's result and the state after it what the command returns, or that it
goes on. `none`: the fuel is used up, which is NO RESULT YET and no result of the hardware (R112, U8; log entry 12). -/
def runLoop (answer : StepResult → State → Option Response) : Nat → State → Option (Response × State)
  | 0, _ => none
  | fuel + 1, s =>
    match answer (stepResult s).1 (stepResult s).2 with
    | some r => some (r, (stepResult s).2)
    | none => runLoop answer fuel (stepResult s).2

/-- The guard, then the loop (R105). -/
def runCommand (answer : StepResult → State → Option Response) (fuel : Nat) (s : State) : Option (Response × State) :=
  match guardFault s with
  | some f => some (guardResponse f, s)
  | none => runLoop answer fuel s

/-- What RUN returns after a step (R107). -/
def runAnswer (r : StepResult) (s : State) : Option Response :=
  match r with
  | .done id => if id = Opcode.id .halt then some (.ok (.word (Memory.read s.mem 0))) else none
  | .paused => some .awaitingInput
  | .faulted record => some (.faulted record)
  | .noNextState => some .refused

/-- What RUN_TO_OUTPUT returns after a step (R108). -/
def runToOutputAnswer (r : StepResult) (s : State) : Option Response :=
  match r with
  | .done id =>
    if id = Opcode.id .output then
      match s.outlog.getLast? with
      | some (pos, v) => some (.ok (.pair pos v))
      | none => none
    else if id = Opcode.id .halt then some (.err .starvedForOutput)
    else none
  | .paused => some .awaitingInput
  | .faulted record => some (.faulted record)
  | .noNextState => some .refused

/-- What RUN_TO_INPUT_WAIT returns after a step (R109). -/
def runToInputWaitAnswer (r : StepResult) (_ : State) : Option Response :=
  match r with
  | .done id => if id = Opcode.id .halt then some (.ok (.bool false)) else none
  | .paused => some (.ok (.bool true))
  | .faulted record => some (.faulted record)
  | .noNextState => some .refused

/-- RUN (R107). -/
def hostRun (fuel : Nat) (s : State) : Option (Response × State) := runCommand runAnswer fuel s

/-- RUN_TO_OUTPUT (R108). -/
def hostRunToOutput (fuel : Nat) (s : State) : Option (Response × State) := runCommand runToOutputAnswer fuel s

/-- RUN_TO_INPUT_WAIT (R109). -/
def hostRunToInputWait (fuel : Nat) (s : State) : Option (Response × State) := runCommand runToInputWaitAnswer fuel s

/-- The commands on an existing instance (R96). -/
inductive Command where
  | reset
  | peek (a : Int)
  | poke (a : Int) (v : Word)
  | queueInput (v : Word)
  | queueInputs (vs : List Word)
  | readStatus
  | step
  | run
  | runToOutput
  | runToInputWait
  | getLastOutput
  | getOutputs
  deriving DecidableEq, Repr

/-- One command on one instance, from its call to its return (R97). `none`, for a run command alone: no result yet. -/
def issue (fuel : Nat) (c : Command) (s : State) : Option (Response × State) :=
  match c with
  | .reset => some (hostReset s)
  | .peek a => some (hostPeek a s)
  | .poke a v => some (hostPoke a v s)
  | .queueInput v => some (hostQueueInput v s)
  | .queueInputs vs => some (hostQueueInputs vs s)
  | .readStatus => some (hostReadStatus s)
  | .step => some (hostStep s)
  | .run => hostRun fuel s
  | .runToOutput => hostRunToOutput fuel s
  | .runToInputWait => hostRunToInputWait fuel s
  | .getLastOutput => some (hostGetLastOutput s)
  | .getOutputs => some (hostGetOutputs s)

/-- Commands one after the other (R97), each with its own fuel: the responses in order and the state at the end; `none` where
one of them has no result yet. -/
def issueAll : List (Nat × Command) → State → Option (List Response × State)
  | [], s => some ([], s)
  | (fuel, c) :: rest, s =>
    match issue fuel c s with
    | none => none
    | some (r, s') =>
      match issueAll rest s' with
      | none => none
      | some (rs, s'') => some (r :: rs, s'')

end Sys2Proof.Machine
end

