-- ==== Sys2Proof/Machine/Load.lean ====
section
/-! DEFINITION. LOAD_WORDS and LOAD_TEXT, which create an instance (46_host_control.md R98, R99), with the text grammar. -/

namespace Sys2Proof.Machine

/-- The state LOAD leaves (R98, 10_state.md R30). -/
def loadedState (p : Params) (ws : List Word) : State :=
  { params := p, mem := Memory.ofWords ws, origin := ws, pc := 0, rb := 0, halted := false, fault := none, inq := [],
    outlog := [] }

/-- LOAD_WORDS(ws) (R98): a new instance, or a refusal when `ws` is longer than `MAX_ADDR + 1`. -/
def hostLoadWords (p : Params) (ws : List Word) : Response × Option State :=
  if ws.length ≤ p.maxAddr.val + 1 then (.ok .unit, some (loadedState p ws)) else (.refused, none)

/-- The white space LOAD_TEXT trims (R99): space, tab, carriage return, line feed. -/
def isTrimmed (c : Char) : Bool := c = ' ' || c = '\t' || c = '\r' || c = '\n'

/-- Step 1 of the grammar (R99): leading and trailing white space removed. -/
def trimText (text : List Char) : List Char :=
  ((text.dropWhile isTrimmed).reverse.dropWhile isTrimmed).reverse

/-- Step 2 (R99): split at every comma; an empty text gives one empty token. -/
def splitTokens : List Char → List (List Char)
  | [] => [[]]
  | c :: rest =>
    if c = ',' then [] :: splitTokens rest
    else
      match splitTokens rest with
      | [] => [[c]]
      | token :: tokens => (c :: token) :: tokens

/-- The value of one decimal digit. -/
def digitValue (c : Char) : Option Nat :=
  if '0'.toNat ≤ c.toNat ∧ c.toNat ≤ '9'.toNat then some (c.toNat - '0'.toNat) else none

/-- Decimal digits read on from the value `acc`. -/
def readDigits (acc : Nat) : List Char → Option Nat
  | [] => some acc
  | c :: rest =>
    match digitValue c with
    | none => none
    | some d => readDigits (10 * acc + d) rest

/-- One or more decimal digits. -/
def readNumber (token : List Char) : Option Nat :=
  match token with
  | [] => none
  | _ :: _ => readDigits 0 token

/-- The word of a value that fits `Int64`. -/
def fittingWord (v : Int) : Option Word := if fits64 v then some (wrap64 v) else none

/-- Step 3 (R99): a token is `-?[0-9]+` and its value fits `Int64`. -/
def readToken (token : List Char) : Option Word :=
  match token with
  | '-' :: rest =>
    match readNumber rest with
    | none => none
    | some n => fittingWord (-(Int.ofNat n))
  | _ =>
    match readNumber token with
    | none => none
    | some n => fittingWord (Int.ofNat n)

/-- Every token read, or none if one is malformed. -/
def readTokens : List (List Char) → Option (List Word)
  | [] => some []
  | t :: ts =>
    match readToken t, readTokens ts with
    | some w, some ws => some (w :: ws)
    | _, _ => none

/-- The words of a program text, or `none` where it is malformed (R99). -/
def parseProgram (text : List Char) : Option (List Word) := readTokens (splitTokens (trimText text))

/-- LOAD_TEXT(text) (R99). The text is its list of characters (DESIGN CHOICE, log entry 18: safe). -/
def hostLoadText (p : Params) (text : List Char) : Response × Option State :=
  match parseProgram text with
  | none => (.err .malformedProgramText, none)
  | some ws => hostLoadWords p ws

end Sys2Proof.Machine
end

