-- ==== Sys2Proof/Machine/Instances.lean ====
section
/-! DEFINITION. Several instances, each independent (10_state.md R29, 60_exceptions.md R125). -/

namespace Sys2Proof.Machine

/-- Any number of instances, in the order they were created. The spec gives them no identifier a program could see (R125); the
place in the list is the host's own handle. -/
structure System where
  instances : List State
  deriving DecidableEq, Repr

/-- A command of the host to the instance at place `k` (R125): the other instances are not touched. `none`: no result yet, or
no such instance, a move the host does not have. -/
def systemIssue (fuel : Nat) (k : Nat) (c : Command) (sys : System) : Option (Response × System) :=
  match sys.instances[k]? with
  | none => none
  | some s =>
    match issue fuel c s with
    | none => none
    | some (r, s') => some (r, { instances := sys.instances.set k s' })

/-- LOAD_WORDS creates a new instance beside the others (R98, R125). -/
def systemLoadWords (p : Params) (ws : List Word) (sys : System) : Response × System :=
  match hostLoadWords p ws with
  | (r, some s) => (r, { instances := sys.instances ++ [s] })
  | (r, none) => (r, sys)

/-- LOAD_TEXT creates a new instance beside the others, or none (R99). -/
def systemLoadText (p : Params) (text : List Char) (sys : System) : Response × System :=
  match hostLoadText p text with
  | (r, some s) => (r, { instances := sys.instances ++ [s] })
  | (r, none) => (r, sys)

end Sys2Proof.Machine
end

