-- ==== Sys2Proof/Safety.lean ====
section
/-! DEFINITION. The terms claims are stated in: the invariant of an instance, when a step may run, when a run ends well, and
the operand rules R73 and R74 as relations. -/

namespace Sys2Proof.Machine

/-- The invariant of an instance: memory is in its canonical form and lists no address above `MAX_ADDR`, an instance is
never both halted and faulted (46_host_control.md R105), and the origin snapshot fits the address space (R98). -/
abbrev State.Inv (s : State) : Prop :=
  Memory.wf s.mem ∧ Memory.within s.mem s.params.maxAddr.val ∧ ¬(s.halted = true ∧ s.fault.isSome = true) ∧
    s.origin.length ≤ s.params.maxAddr.val + 1

/-- The precondition of `Step` (40_decode_and_operands.md R67). -/
abbrev Runnable (s : State) : Prop := s.halted = false ∧ s.fault = none

/-- A run has ended well (46_host_control.md R113). -/
abbrev EndsWell (s : State) : Prop := s.halted = true ∧ s.fault = none

/-- `a` is an address of this instance: `0 ≤ a ≤ MAX_ADDR` (20_memory.md R35). -/
abbrev Addressable (s : State) (a : Int) : Prop := 0 ≤ a ∧ a ≤ (s.params.maxAddr.val : Int)

/-- `v` is representable as an `Int64` (00_scope.md R7, R12). -/
abbrev Fits (v : Int) : Prop := -(2 ^ 63) ≤ v ∧ v ≤ 2 ^ 63 - 1

/-- The word at the address `PC` names, where it names one: the opcode word of the next instruction (R68). -/
abbrev opcodeWord (s : State) : Word := Memory.read s.mem s.pc.toInt.toNat

/-- The id of that word (30_encoding.md R52), for a non-negative word. -/
abbrev opcodeId (s : State) : Nat := (opcodeWord s).toNat % 100

/-- The sequential next address of an instruction with `n` parameters fits `Int64` (R76). -/
abbrev NextFits (s : State) (n : Nat) : Prop := Fits (s.pc.toInt + 1 + n)

/-- The `PC` such an instruction leaves (R19, R76). -/
abbrev nextPC (s : State) (n : Nat) : Word := BitVec.ofInt 64 (s.pc.toInt + 1 + n)

/-- Parameter `i` is a read operand that resolves to the value `v` (R73). -/
def ReadsAs (s : State) (i : Nat) (o : Operand) (v : Word) : Prop :=
  Addressable s (s.pc.toInt + i) ∧
    match o.mode with
    | .position => Addressable s o.word.toInt ∧ v = Memory.read s.mem o.word.toInt.toNat
    | .immediate => v = o.word
    | .relative =>
      Addressable s (o.word.toInt + s.rb.toInt) ∧ v = Memory.read s.mem (o.word.toInt + s.rb.toInt).toNat
    | .reserved _ => False

/-- Parameter `i` is a write target that resolves to the address `d` (R74). -/
def TargetsAt (s : State) (i : Nat) (o : Operand) (d : Nat) : Prop :=
  Addressable s (s.pc.toInt + i) ∧
    match o.mode with
    | .position => Addressable s o.word.toInt ∧ (d : Int) = o.word.toInt
    | .relative => Addressable s (o.word.toInt + s.rb.toInt) ∧ (d : Int) = o.word.toInt + s.rb.toInt
    | .immediate => False
    | .reserved _ => False

/-- The mode digit of parameter `k` (1-based), "and `m_i = 0` for an operand the instruction does not have" (30_encoding.md
R64). -/
abbrev modeAt (i : Instr) (k : Nat) : Nat := ((i.operands[k - 1]?).map fun o => o.mode.digit).getD 0

/-- The next state of an instruction that raises the fault `c` (60_exceptions.md R116). That everything but `FAULT` is kept
is decision D6, which U3 bids no claim about the hardware read (log entry 6). -/
abbrev Raises (s : State) (c : Cause) : Host.Outcome State Fault Refusal :=
  .next { s with fault := some { cause := c, pc := s.pc } }

/-- The next state of an instruction that writes the word `r` at address `d` and goes on by four words (R19, R77). -/
abbrev Stores (s : State) (d : Nat) (r : Word) : Host.Outcome State Fault Refusal :=
  .next { s with mem := Memory.write s.mem d r, pc := nextPC s 3 }

/-- The integer law of R82 for the three-parameter instruction `i`, named `op` in an overflow, whose operands resolve to `x`
and `y`, whose exact result is `exact` and whose target is `d`: the exact result where it fits; else the fault, or the
congruent word, as the policy says. -/
def IntegerLaw (s : State) (i : Instr) (op : ArithOp) (x y : Word) (exact : Int) (d : Nat) : Prop :=
  (Fits exact → NextFits s 3 → ∃ r : Word, r.toInt = exact ∧ exec i s = Stores s d r) ∧
    (¬Fits exact → s.params.overflow = .fault → exec i s = Raises s (.arithmeticOverflow op x y)) ∧
    (¬Fits exact → s.params.overflow = .wrap → NextFits s 3 →
      ∃ r : Word, (r.toInt - exact) % 2 ^ 64 = 0 ∧ exec i s = Stores s d r)

/-- What an instruction that does not write memory, `RB`, `HALTED` or the queues leaves alone in any next state: all but
`PC`, `FAULT`, and what the caller names. -/
abbrev SameParamsAndOrigin (s s' : State) : Prop := s'.params = s.params ∧ s'.origin = s.origin

/-- `FAULT` is as before, or it records a fault at this instruction, and then everything else is untouched (R31, R116): that is
decision D6, which U3 bids no claim about the hardware read (log entry 6). -/
abbrev FaultKeptOrRaised (s s' : State) : Prop := s'.fault = s.fault ∨ ∃ c, s' = { s with fault := some { cause := c, pc := s.pc } }

/-- "whitespace (space, tab, carriage return, line feed)" of a program text (46_host_control.md R99). -/
abbrev TextSpace (c : Char) : Prop := c.toNat = 32 ∨ c.toNat = 9 ∨ c.toNat = 13 ∨ c.toNat = 10

/-- Step 1 of R99, said of what it leaves: `text` is white space, then `body`, then white space, and `body` neither begins nor
ends with any. -/
def TrimsTo (text body : List Char) : Prop :=
  ∃ pre post, text = pre ++ body ++ post ∧ (∀ c ∈ pre ++ post, TextSpace c) ∧
    (∀ c, body.head? = some c → ¬TextSpace c) ∧ ∀ c, body.getLast? = some c → ¬TextSpace c

/-- Step 2 of R99, said of what it leaves: at least one token, no token with a comma, and the tokens joined by commas are
`body`. -/
def SplitsTo (body : List Char) (tokens : List (List Char)) : Prop :=
  tokens ≠ [] ∧ (∀ t ∈ tokens, ',' ∉ t) ∧ [','].intercalate tokens = body

/-- A token of a program text denotes the word `w` (46_host_control.md R99): an optional minus sign, then one or more decimal
digits whose value is the word's. -/
def TokenDenotes (token : List Char) (w : Word) : Prop :=
  ∃ ds : List Char, ds ≠ [] ∧ (∀ c ∈ ds, 48 ≤ c.toNat ∧ c.toNat ≤ 57) ∧
    ((token = ds ∧ w.toInt = ds.foldl (fun n c => 10 * n + ((c.toNat : Int) - 48)) 0) ∨
      (token = '-' :: ds ∧ w.toInt = -ds.foldl (fun n c => 10 * n + ((c.toNat : Int) - 48)) 0))

end Sys2Proof.Machine
end

