-- ==== Sys2Proof/Certificates/Slice0/Obligations.lean ====
section
/-! DEFINITION. The statements for the provers, family by family: encoding, memory and load, the resolver, the results of the
instructions, their faults, the step, the whole machine, the host port, and the frames. -/

open Sys2Proof Sys2Proof.Machine

/-! ### Encoding -/

/-- R64 with R52 to R56: what the encoder makes of an instruction decodes back to it, under either policy and whatever words
follow; so do the words of an illegal instruction, which the encoder refuses to make. -/
def Obligations.DecodeOfEncodeIsIdentity : Prop :=
  (∀ (policy : ExtraDigitPolicy) (i : Instr) (ws rest : List Word), encode i = some ws →
      decode policy (ws ++ rest) = .ok i) ∧
    ∀ (policy : ExtraDigitPolicy) (i : Instr) (rest : List Word), decode policy (instrWords i ++ rest) = .ok i

/-- From R64, R60 and R63: the encoder gives a legal instruction the opcode word `id + 100*m1 + 1000*m2 + 10000*m3` and its
parameter words in order, and refuses an immediate write target. That it refuses every other illegal instruction too, one with a
mode digit 3 to 9, is the model's reading (DEDUCED, log entry 23). -/
def Obligations.EncoderGivesTheWordsOrRefuses : Prop :=
  (∀ i : Instr, i.wellFormed = true → ∃ w : Word,
      w.toInt = ((i.opcode.id + 100 * modeAt i 1 + 1000 * modeAt i 2 + 10000 * modeAt i 3 : Nat) : Int) ∧
        encode i = some (w :: i.operands.map Operand.word)) ∧
    (∀ i : Instr, i.wellFormed = false → encode i = none) ∧
    ∀ a b t : Operand, t.mode = .immediate →
      ∀ i ∈ [Instr.add a b t, .mul a b t, .input t, .lessThan a b t, .equals a b t], encode i = none

/-- R65: under `fault` a legal instruction has exactly one opcode word, that of R64; under `ignore` that word plus any
multiple of `10^(N+2)` that fits `Int64` decodes to it too. -/
def Obligations.LegalInstructionHasOneOpcodeWord : Prop :=
  (∀ i : Instr, i.wellFormed = true →
      decode .fault (instrWords i) = .ok i ∧
        ∀ ws, decode .fault ws = .ok i → ws.getD 0 0 = BitVec.ofNat 64 (opcodeValue i)) ∧
    ∀ (i : Instr) (j : Nat), i.wellFormed = true → 1 ≤ j →
      opcodeValue i + j * 10 ^ (i.opcode.nparams + 2) ≤ 2 ^ 63 - 1 →
      decode .ignore (BitVec.ofNat 64 (opcodeValue i + j * 10 ^ (i.opcode.nparams + 2)) :: i.operands.map Operand.word) =
        .ok i

/-- Words of 95_test_vectors.md V-DEC, written out there from the encoding rules. -/
def Obligations.SpecOpcodeWordsDecode : Prop :=
  decode .fault [1, 5, 6, 7] = .ok (.add ⟨.position, 5⟩ ⟨.position, 6⟩ ⟨.position, 7⟩) ∧
    decode .fault [1002, 4, 3, 4] = .ok (.mul ⟨.position, 4⟩ ⟨.immediate, 3⟩ ⟨.position, 4⟩) ∧
    decode .fault [21207, 2, 10, 3] = .ok (.lessThan ⟨.relative, 2⟩ ⟨.immediate, 10⟩ ⟨.relative, 3⟩) ∧
    decode .fault [203, 1] = .ok (.input ⟨.relative, 1⟩) ∧
    decode .fault [2105, 1, 0] = .ok (.jumpIfTrue ⟨.immediate, 1⟩ ⟨.relative, 0⟩) ∧
    decode .fault [109, 19] = .ok (.adjustBase ⟨.immediate, 19⟩) ∧
    decode .fault [10004, 0] = .error (.extraDigits .output 10) ∧
    decode .ignore [10004, 0] = .ok (.output ⟨.position, 0⟩) ∧
    decode .fault [199] = .error (.extraDigits .halt 1) ∧ decode .ignore [199] = .ok .halt ∧
    decode .ignore [98] = .error (.unknownOpcode 98) ∧ decode .ignore [-1] = .error (.unknownOpcode (-1))

/-- R61: the opcode word alone gives the length, and no word beyond that length is looked at. -/
def Obligations.OpcodeWordAloneGivesTheLength : Prop :=
  (∀ (policy policy' : ExtraDigitPolicy) (ws ws' : List Word) (i i' : Instr), ws.getD 0 0 = ws'.getD 0 0 →
      decode policy ws = .ok i → decode policy' ws' = .ok i' → i.length = i'.length ∧ i.opcode = i'.opcode) ∧
    ∀ (policy : ExtraDigitPolicy) (ws ws' : List Word) (i : Instr), decode policy ws = .ok i →
      (∀ k, k < i.length → ws'.getD k 0 = ws.getD k 0) → decode policy ws' = .ok i

/-! ### Memory, load and reset -/

/-- R36: what is stored is all that can be observed; two canonical memories that read alike are one. -/
def Obligations.EqualReadsAreEqualMemories : Prop :=
  ∀ m m' : Memory, Memory.wf m → Memory.wf m' → (∀ a, Memory.read m a = Memory.read m' a) → m = m'

/-- R102: POKE writes one word in range and nothing else, the next fetch sees it, and out of range it changes nothing. -/
def Obligations.PokeWritesOneWordOrNothing : Prop :=
  ∀ (s : State) (a : Int) (v : Word), Memory.wf s.mem →
    (Addressable s a → ∃ m, hostPoke a v s = (.ok .unit, { s with mem := m }) ∧
      (∀ b : Nat, Memory.read m b = if (b : Int) = a then v else Memory.read s.mem b) ∧
      ∀ ws, fetch { s with mem := m } = .ok ws → ws.getD 0 0 = if s.pc.toInt = a then v else opcodeWord s) ∧
    (¬Addressable s a → hostPoke a v s = (.err .hostAddressOutOfRange, s))

/-- R101: PEEK answers the word at an address in range (0 where nothing is stored), an error otherwise, and changes
nothing. -/
def Obligations.PeekAnswersTheWord : Prop :=
  ∀ (s : State) (a : Int),
    (Addressable s a → hostPeek a s = (.ok (.word (Memory.read s.mem a.toNat)), s)) ∧
      (Addressable s a → (∀ c ∈ s.mem, (c.1 : Int) ≠ a) → hostPeek a s = (.ok (.word 0), s)) ∧
      (¬Addressable s a → hostPeek a s = (.err .hostAddressOutOfRange, s))

/-- R98: what LOAD_WORDS leaves, word by word; the empty program faults at its first STEP; an over-long list is refused. -/
def Obligations.LoadWordsLeavesTheResetState : Prop :=
  ∀ (p : Params) (ws : List Word),
    (ws.length ≤ p.maxAddr.val + 1 → ∃ s, hostLoadWords p ws = (.ok .unit, some s) ∧ s.params = p ∧ s.origin = ws ∧
      (∀ a, Memory.read s.mem a = ws.getD a 0) ∧ s.pc = 0 ∧ s.rb = 0 ∧ s.halted = false ∧ s.fault = none ∧
      s.inq = [] ∧ s.outlog = [] ∧
      (ws = [] → (hostStep s).1 = .faulted { cause := .unknownOpcode 0, pc := 0 })) ∧
    (¬ws.length ≤ p.maxAddr.val + 1 → hostLoadWords p ws = (.refused, none))

/-- R100: RESET always succeeds and restores every piece of state from the instance's own origin. That the memory it leaves is
in canonical form (`Memory.wf`) is no rule of the spec: the form is the model's DESIGN CHOICE (log entry 2). -/
def Obligations.ResetRestoresTheOrigin : Prop :=
  ∀ s : State, ∃ t, hostReset s = (.ok .unit, t) ∧ t.params = s.params ∧ t.origin = s.origin ∧
    (∀ a, Memory.read t.mem a = s.origin.getD a 0) ∧ Memory.wf t.mem ∧ t.pc = 0 ∧ t.rb = 0 ∧ t.halted = false ∧
    t.fault = none ∧ t.inq = [] ∧ t.outlog = []

/-- R17: no step and no command on an instance writes `ORIGIN` (nor the parameters); LOAD sets it. -/
def Obligations.OnlyLoadWritesOrigin : Prop :=
  (∀ s s' : State, step s = .next s' → s'.origin = s.origin ∧ s'.params = s.params) ∧
    (∀ (fuel : Nat) (c : Command) (s s' : State) (r : Response), issue fuel c s = some (r, s') →
      s'.origin = s.origin ∧ s'.params = s.params) ∧
    ∀ (p : Params) (ws : List Word) (s : State) (r : Response), hostLoadWords p ws = (r, some s) → s.origin = ws

/-- R135: whatever commands an instance was given, RESET brings it back to exactly the state LOAD left, so the same commands
then give the same responses and the same state. -/
def Obligations.ResetMakesRunsRepeatable : Prop :=
  ∀ (p : Params) (ws : List Word) (s s' : State) (r : Response) (cs : List (Nat × Command)) (rs : List Response),
    hostLoadWords p ws = (r, some s) → issueAll cs s = some (rs, s') →
      hostReset s' = (.ok .unit, s) ∧ issueAll cs (hostReset s').2 = some (rs, s')

/-! ### The addressing-mode resolver -/

/-- R73: what a read operand answers, or the fault it raises, in every mode. -/
def Obligations.ReadOperandResolvesByMode : Prop :=
  ∀ (s : State) (i : Nat) (o : Operand),
    (∀ v, readOperand s i o = .ok v ↔ ReadsAs s i o v) ∧
      (¬Addressable s (s.pc.toInt + i) → readOperand s i o = .error (.addressOutOfRange (s.pc.toInt + i))) ∧
      (Addressable s (s.pc.toInt + i) →
        (o.mode = .position → ¬Addressable s o.word.toInt →
          readOperand s i o = .error (.addressOutOfRange o.word.toInt)) ∧
        (o.mode = .relative → ¬Addressable s (o.word.toInt + s.rb.toInt) →
          readOperand s i o = .error (.addressOutOfRange (o.word.toInt + s.rb.toInt))) ∧
        ∀ d : Fin 7, o.mode = .reserved d → readOperand s i o = .error (.invalidAddressingMode i (3 + d.val)))

/-- R74: what a write target answers, or the fault it raises, in every mode; immediate mode is an error. -/
def Obligations.WriteTargetResolvesByMode : Prop :=
  ∀ (s : State) (i : Nat) (o : Operand),
    (∀ d, writeTarget s i o = .ok d ↔ TargetsAt s i o d) ∧
      (¬Addressable s (s.pc.toInt + i) → writeTarget s i o = .error (.addressOutOfRange (s.pc.toInt + i))) ∧
      (Addressable s (s.pc.toInt + i) →
        (o.mode = .position → ¬Addressable s o.word.toInt →
          writeTarget s i o = .error (.addressOutOfRange o.word.toInt)) ∧
        (o.mode = .relative → ¬Addressable s (o.word.toInt + s.rb.toInt) →
          writeTarget s i o = .error (.addressOutOfRange (o.word.toInt + s.rb.toInt))) ∧
        (o.mode = .immediate → writeTarget s i o = .error (.invalidAddressingMode i 1)) ∧
        ∀ d : Fin 7, o.mode = .reserved d → writeTarget s i o = .error (.invalidAddressingMode i (3 + d.val)))

/-- R80: a relative operand with word `k` is a position operand with word `k + RB`, as a target and as a read; where `k + RB`
is no address, the relative one faults with `AddressOutOfRange`, and so does the position one wherever `k + RB` is a word at
all (of the sum itself, where the parameter word's own address is in range). -/
def Obligations.RelativeIsPositionAtTheSum : Prop :=
  ∀ (s : State) (i : Nat) (k : Word),
    (Addressable s (k.toInt + s.rb.toInt) →
      writeTarget s i ⟨.relative, k⟩ = writeTarget s i ⟨.position, BitVec.ofInt 64 (k.toInt + s.rb.toInt)⟩ ∧
      readOperand s i ⟨.relative, k⟩ = readOperand s i ⟨.position, BitVec.ofInt 64 (k.toInt + s.rb.toInt)⟩) ∧
    (¬Addressable s (k.toInt + s.rb.toInt) → ∃ e : Int,
      (Addressable s (s.pc.toInt + i) → e = k.toInt + s.rb.toInt) ∧
      writeTarget s i ⟨.relative, k⟩ = .error (.addressOutOfRange e) ∧
      readOperand s i ⟨.relative, k⟩ = .error (.addressOutOfRange e) ∧
      (Fits (k.toInt + s.rb.toInt) →
        writeTarget s i ⟨.position, BitVec.ofInt 64 (k.toInt + s.rb.toInt)⟩ = .error (.addressOutOfRange e) ∧
          readOperand s i ⟨.position, BitVec.ofInt 64 (k.toInt + s.rb.toInt)⟩ = .error (.addressOutOfRange e)))

/-- R79: an instruction depends on a read operand only through the value it resolves to, whichever mode supplied it. -/
def Obligations.ReadOperandsAreModeIndependent : Prop :=
  ∀ (s : State) (a a' b b' t : Operand) (x y : Word), ReadsAs s 1 a x → ReadsAs s 1 a' x → ReadsAs s 2 b y →
    ReadsAs s 2 b' y →
    exec (.add a b t) s = exec (.add a' b' t) s ∧ exec (.mul a b t) s = exec (.mul a' b' t) s ∧
      exec (.lessThan a b t) s = exec (.lessThan a' b' t) s ∧ exec (.equals a b t) s = exec (.equals a' b' t) s ∧
      exec (.jumpIfTrue a b) s = exec (.jumpIfTrue a' b') s ∧ exec (.jumpIfFalse a b) s = exec (.jumpIfFalse a' b') s ∧
      exec (.output a) s = exec (.output a') s ∧ exec (.adjustBase a) s = exec (.adjustBase a') s

/-! ### What the instructions do -/

/-- R82 for ADD and MUL (R83, R84): the exact sum or product is written where it fits `Int64`; where it does not,
`OVERFLOW_POLICY` decides. Under `fault` the overflow comes before any fault of the next `PC` (R78). That the overflow keeps
the rest of the state is the spec's decision D6, which U3 bids no claim about the hardware read (log entry 6). -/
def Obligations.AddAndMulObeyTheIntegerLaw : Prop :=
  ∀ (s : State) (a b t : Operand) (x y : Word) (d : Nat), ReadsAs s 1 a x → ReadsAs s 2 b y → TargetsAt s 3 t d →
    IntegerLaw s (.add a b t) .add x y (x.toInt + y.toInt) d ∧ IntegerLaw s (.mul a b t) .mul x y (x.toInt * y.toInt) d

/-- R91 for LESS-THAN and EQUALS (R92, R93): the word 1 where the signed relation holds, the word 0 where it does not, to
memory and to no flag. -/
def Obligations.ComparisonsWriteOneOrZero : Prop :=
  ∀ (s : State) (a b t : Operand) (x y : Word) (d : Nat), ReadsAs s 1 a x → ReadsAs s 2 b y → TargetsAt s 3 t d →
    NextFits s 3 →
    (x.toInt < y.toInt → exec (.lessThan a b t) s = Stores s d 1) ∧
      (¬x.toInt < y.toInt → exec (.lessThan a b t) s = Stores s d 0) ∧
      (x.toInt = y.toInt → exec (.equals a b t) s = Stores s d 1) ∧
      (x.toInt ≠ y.toInt → exec (.equals a b t) s = Stores s d 0)

/-- R86: IN takes exactly the head of the queue, writes it, and goes on by two words. -/
def Obligations.InWritesTheHeadOfTheQueue : Prop :=
  ∀ (s : State) (t : Operand) (v : Word) (q : List Word) (d : Nat), s.inq = v :: q → TargetsAt s 1 t d → NextFits s 1 →
    exec (.input t) s = .next { s with mem := Memory.write s.mem d v, inq := q, pc := nextPC s 1 }

/-- R87: OUT appends its own address and the value, and goes on by two words. -/
def Obligations.OutAppendsItsAddressAndValue : Prop :=
  ∀ (s : State) (a : Operand) (x : Word), ReadsAs s 1 a x → NextFits s 1 →
    exec (.output a) s = .next { s with outlog := s.outlog ++ [(s.pc, x)], pc := nextPC s 1 }

/-- R89, R90 with R88: a taken jump writes its target to `PC` unchecked, whatever the sequential address; one not taken goes
on by three words; any non-zero value, negative or not, is true. -/
def Obligations.ConditionalJumpsTestForZero : Prop :=
  ∀ (s : State) (a b : Operand) (x y : Word), ReadsAs s 1 a x → ReadsAs s 2 b y →
    (x.toInt ≠ 0 → exec (.jumpIfTrue a b) s = .next { s with pc := y }) ∧
      (x.toInt = 0 → exec (.jumpIfFalse a b) s = .next { s with pc := y }) ∧
      (NextFits s 2 → x.toInt = 0 → exec (.jumpIfTrue a b) s = .next { s with pc := nextPC s 2 }) ∧
      (NextFits s 2 → x.toInt ≠ 0 → exec (.jumpIfFalse a b) s = .next { s with pc := nextPC s 2 })

/-- R94: HALT sets `HALTED` and goes on by one word (the value of `PC` after HALT is derived, U10, log entry 7). -/
def Obligations.HaltSetsHalted : Prop :=
  ∀ s : State, NextFits s 0 → exec .halt s = .next { s with halted := true, pc := nextPC s 0 }

/-- R95: ADJUST-BASE adds its operand to `RB`, exactly where the sum fits, else as `OVERFLOW_POLICY` says; the operand was
read with the old `RB`. That the overflow keeps the rest of the state is decision D6 (U3, log entry 6). -/
def Obligations.AdjustBaseAddsToTheRelativeBase : Prop :=
  ∀ (s : State) (a : Operand) (x : Word), ReadsAs s 1 a x →
    (Fits (s.rb.toInt + x.toInt) → NextFits s 1 →
      ∃ r : Word, r.toInt = s.rb.toInt + x.toInt ∧ exec (.adjustBase a) s = .next { s with rb := r, pc := nextPC s 1 }) ∧
    (¬Fits (s.rb.toInt + x.toInt) → s.params.overflow = .fault →
      exec (.adjustBase a) s = Raises s (.arithmeticOverflow .adjustBase s.rb x)) ∧
    (¬Fits (s.rb.toInt + x.toInt) → s.params.overflow = .wrap → NextFits s 1 →
      ∃ r : Word, (r.toInt - (s.rb.toInt + x.toInt)) % 2 ^ 64 = 0 ∧
        exec (.adjustBase a) s = .next { s with rb := r, pc := nextPC s 1 })

/-- R49: the word ADD or MUL stores over the opcode word of the very next instruction is the word fetched next. -/
def Obligations.StoreOverNextOpcodeIsFetched : Prop :=
  ∀ (s s' : State) (a b t : Operand) (x y : Word) (d : Nat), Memory.wf s.mem → ReadsAs s 1 a x → ReadsAs s 2 b y →
    TargetsAt s 3 t d → (d : Int) = s.pc.toInt + 4 →
    (Fits (x.toInt + y.toInt) → exec (.add a b t) s = .next s' →
      ∃ ws, fetch s' = .ok ws ∧ (ws.getD 0 0).toInt = x.toInt + y.toInt) ∧
    (Fits (x.toInt * y.toInt) → exec (.mul a b t) s = .next s' →
      ∃ ws, fetch s' = .ok ws ∧ (ws.getD 0 0).toInt = x.toInt * y.toInt)

/-! ### The faults of an instruction -/

/-- R78, point 5: the first parameter that faults, in declaration order, is the one reported, whatever the later ones would
do; an IN with a value queued reports its target's fault. That the rest of the state is kept is decision D6 (U3, log
entry 6). -/
def Obligations.FirstFaultingParameterIsReported : Prop :=
  ∀ (s : State) (a b t : Operand) (x y : Word) (c : Cause),
    (readOperand s 1 a = .error c →
      ∀ i ∈ [Instr.add a b t, .mul a b t, .lessThan a b t, .equals a b t, .jumpIfTrue a b, .jumpIfFalse a b, .output a,
        .adjustBase a], exec i s = Raises s c) ∧
    (readOperand s 1 a = .ok x → readOperand s 2 b = .error c →
      ∀ i ∈ [Instr.add a b t, .mul a b t, .lessThan a b t, .equals a b t, .jumpIfTrue a b, .jumpIfFalse a b],
        exec i s = Raises s c) ∧
    (readOperand s 1 a = .ok x → readOperand s 2 b = .ok y → writeTarget s 3 t = .error c →
      ∀ i ∈ [Instr.add a b t, .mul a b t, .lessThan a b t, .equals a b t], exec i s = Raises s c) ∧
    (s.inq ≠ [] → writeTarget s 1 t = .error c → exec (.input t) s = Raises s c)

/-- R76: an instruction whose sequential next address does not fit `Int64` raises `AddressOutOfRange` with that exact
address, after its operands and its arithmetic have passed: the result fits, or the policy wraps it. That the rest of the
state is kept is decision D6 (U3, log entry 6). -/
def Obligations.NextAddressThatDoesNotFitFaults : Prop :=
  ∀ (s : State) (a b t : Operand) (x y : Word) (d d1 : Nat),
    (¬NextFits s 3 → ReadsAs s 1 a x → ReadsAs s 2 b y → TargetsAt s 3 t d →
      (Fits (x.toInt + y.toInt) ∨ s.params.overflow = .wrap →
        exec (.add a b t) s = Raises s (.addressOutOfRange (s.pc.toInt + 4))) ∧
      (Fits (x.toInt * y.toInt) ∨ s.params.overflow = .wrap →
        exec (.mul a b t) s = Raises s (.addressOutOfRange (s.pc.toInt + 4))) ∧
      exec (.lessThan a b t) s = Raises s (.addressOutOfRange (s.pc.toInt + 4)) ∧
      exec (.equals a b t) s = Raises s (.addressOutOfRange (s.pc.toInt + 4))) ∧
    (¬NextFits s 2 → ReadsAs s 1 a x → ReadsAs s 2 b y →
      (x.toInt = 0 → exec (.jumpIfTrue a b) s = Raises s (.addressOutOfRange (s.pc.toInt + 3))) ∧
      (x.toInt ≠ 0 → exec (.jumpIfFalse a b) s = Raises s (.addressOutOfRange (s.pc.toInt + 3)))) ∧
    (¬NextFits s 1 → s.inq ≠ [] → TargetsAt s 1 t d1 →
      exec (.input t) s = Raises s (.addressOutOfRange (s.pc.toInt + 2))) ∧
    (¬NextFits s 1 → ReadsAs s 1 a x →
      exec (.output a) s = Raises s (.addressOutOfRange (s.pc.toInt + 2)) ∧
      (Fits (s.rb.toInt + x.toInt) ∨ s.params.overflow = .wrap →
        exec (.adjustBase a) s = Raises s (.addressOutOfRange (s.pc.toInt + 2)))) ∧
    (¬NextFits s 0 → exec .halt s = Raises s (.addressOutOfRange (s.pc.toInt + 1)))

/-! ### One step -/

/-- R66, R67: where the guard passes and the words at `PC` decode to `i`, the step is `exec i`. The last two clauses
are the model's own (DEDUCED, log entry 17), not a rule of the spec: its fetch reads the four words from `PC` upwards wherever
`PC` alone is an address, where the core reads only the `1 + N` words of the instruction, each checked in its turn. -/
def Obligations.StepRunsTheDecodedInstruction : Prop :=
  ∀ s : State,
    (∀ (ws : List Word) (i : Instr), Runnable s → fetch s = .ok ws → decode s.params.extraDigit ws = .ok i →
      step s = exec i s) ∧
    (∀ ws, fetch s = .ok ws → ∀ k, k < 4 → ws.getD k 0 = Memory.read s.mem (s.pc.toInt.toNat + k)) ∧
    (Addressable s s.pc.toInt → ∃ ws, fetch s = .ok ws)

/-- R105: a halted instance answers `AlreadyHalted` and a faulted one its record, to `step` and to every execution command,
and nothing changes; no step makes an instance both. -/
def Obligations.GuardStopsEveryExecutionCommand : Prop :=
  ∀ (s : State) (fuel : Nat),
    (s.halted = true → step s = .fault .alreadyHalted ∧
      ∀ c ∈ [Command.step, .run, .runToOutput, .runToInputWait], issue fuel c s = some (.err .alreadyHalted, s)) ∧
    (∀ r, s.halted = false → s.fault = some r → step s = .fault (.faulted r) ∧
      ∀ c ∈ [Command.step, .run, .runToOutput, .runToInputWait], issue fuel c s = some (.faulted r, s)) ∧
    ∀ s', step s = .next s' → ¬(s'.halted = true ∧ s'.fault.isSome = true)

/-- R68: a `PC` that is no address faults at the fetch; an unwritten word is an unknown opcode. That the rest of the state is
kept is decision D6 (U3, log entry 6). -/
def Obligations.FetchChecksTheProgramCounter : Prop :=
  ∀ s : State, Runnable s →
    (¬Addressable s s.pc.toInt → step s = Raises s (.addressOutOfRange s.pc.toInt)) ∧
      (Addressable s s.pc.toInt → (∀ c ∈ s.mem, (c.1 : Int) ≠ s.pc.toInt) → step s = Raises s (.unknownOpcode 0))

/-- R69 with R53: a negative opcode word, or an id outside the table, raises `UnknownOpcode` with the word. That the rest of
the state is kept is decision D6 (U3, log entry 6). -/
def Obligations.UnknownOpcodeFaults : Prop :=
  ∀ s : State, Runnable s → Addressable s s.pc.toInt →
    ((opcodeWord s).toInt < 0 ∨ opcodeId s ∉ [1, 2, 3, 4, 5, 6, 7, 8, 9, 99]) →
    step s = Raises s (.unknownOpcode (opcodeWord s))

/-- R70 with R56: non-zero digits above the mode digits raise `InvalidAddressingMode` with `param` 0 and their whole value
under the policy `fault`, unless the pause of an IN with an empty queue comes first. That the fault keeps the rest of the
state is decision D6 (U3, log entry 6). -/
def Obligations.ExtraDigitsFaultAfterThePause : Prop :=
  ∀ (s : State) (op : Opcode), Runnable s → Addressable s s.pc.toInt → 0 ≤ (opcodeWord s).toInt →
    opcodeId s = op.id → s.params.extraDigit = .fault → (opcodeWord s).toNat / 10 ^ (op.nparams + 2) ≠ 0 →
    (¬(op = .input ∧ s.inq = []) →
      step s = Raises s (.invalidAddressingMode 0 ((opcodeWord s).toNat / 10 ^ (op.nparams + 2)))) ∧
    (op = .input ∧ s.inq = [] → step s = .next s)

/-- R85: with an empty queue every IN opcode word, legal modes or not, pauses with nothing changed, every execution command
says so, and a value queued by the host lifts the pause. -/
def Obligations.InPausesOnAnEmptyQueue : Prop :=
  ∀ (s : State) (fuel : Nat), Runnable s → Addressable s s.pc.toInt → 0 ≤ (opcodeWord s).toInt → opcodeId s = 3 →
    s.inq = [] →
    step s = .next s ∧ (∀ t, exec (.input t) s = .next s) ∧ issue fuel .step s = some (.awaitingInput, s) ∧
      issue (fuel + 1) .run s = some (.awaitingInput, s) ∧
      issue (fuel + 1) .runToOutput s = some (.awaitingInput, s) ∧
      issue (fuel + 1) .runToInputWait s = some (.ok (.bool true), s) ∧
      ∀ v, awaitingInput s = true ∧ awaitingInput (hostQueueInput v s).2 = false

/-! ### The whole machine -/

/-- R60, R66: from every state the guard lets through, a step answers a next state; no encoding is refused and none stops the
model. -/
def Obligations.EveryRunnableStateSteps : Prop :=
  ∀ s : State, (Runnable s → ∃ s', step s = .next s') ∧ (¬Runnable s → ∃ f, step s = .fault f)

/-- R116, R121: a step that raises a fault records its cause and its own address, and nothing else changes. That the rest of
the state is kept is the spec's choice (D6; U3 bids no claim about the hardware read it; log entry 6). -/
def Obligations.ExecutionFaultsArePrecise : Prop :=
  ∀ (s s' : State) (r : FaultRecord), step s = .next s' → s'.fault = some r →
    r.pc = s.pc ∧ s' = { s with fault := some r } ∧ hostStep s = (.faulted r, s')

/-- R22: only HALT sets the halted flag, only RESET clears it on an instance, and while it is set every execution command
answers `AlreadyHalted`. -/
def Obligations.HaltedFlagIsOneWay : Prop :=
  (∀ s s' : State, step s = .next s' → s'.halted ≠ s.halted → s'.halted = true ∧ opcodeId s = 99) ∧
    ∀ (fuel : Nat) (c : Command) (s s' : State) (r : Response), s.halted = true → issue fuel c s = some (r, s') →
      (c ≠ .reset → s'.halted = true) ∧ (c ∈ [Command.step, .run, .runToOutput, .runToInputWait] → r = .err .alreadyHalted)

/-- R21: of all instructions only ADJUST-BASE changes the relative base. Of a step that faults this rests on decision D6 (U3,
log entry 6). -/
def Obligations.OnlyAdjustBaseWritesTheRelativeBase : Prop :=
  ∀ s s' : State, step s = .next s' → s'.rb ≠ s.rb → opcodeId s = 9

/-- R26: the output log only grows, by one pair at a time, and only OUT appends, its own address first. Of a step that
faults this rests on decision D6 (U3, log entry 6). -/
def Obligations.OutputLogIsAppendOnly : Prop :=
  ∀ s s' : State, step s = .next s' →
    s'.outlog = s.outlog ∨ (opcodeId s = 4 ∧ ∃ v, s'.outlog = s.outlog ++ [(s.pc, v)])

/-- R25: only IN removes from the input queue, and only its head, one value at a time. Of a step that faults this
rests on decision D6 (U3, log entry 6). -/
def Obligations.OnlyInConsumesInput : Prop :=
  ∀ s s' : State, step s = .next s' →
    s'.inq = s.inq ∨ (opcodeId s = 3 ∧ ∃ v, s.inq = v :: s'.inq)

/-- R31, R41: a step changes at most one word of memory, and only ADD, MUL, IN, LESS-THAN and EQUALS change
any. Of a step that faults this rests on decision D6 (U3, log entry 6). -/
def Obligations.StepChangesAtMostOneWord : Prop :=
  ∀ s s' : State, Memory.wf s.mem → step s = .next s' →
    (opcodeId s ∉ [1, 2, 3, 7, 8] → s'.mem = s.mem) ∧
      ∀ a b, Memory.read s'.mem a ≠ Memory.read s.mem a → Memory.read s'.mem b ≠ Memory.read s.mem b → a = b

/-- No instruction reads the origin snapshot or the output log: the whole step (R67), its handlers (R71, R83 to R95) and the
resolver (R73, R74) name neither as a source. A step from a state with another snapshot and another log does the same to
everything else, and appends the same. Of a step that faults this rests on decision D6 (U3, log entry 6). -/
def Obligations.StepIgnoresOriginAndOutputLog : Prop :=
  ∀ (s s' : State) (o : List Word) (l : List (Word × Word)), step s = .next s' →
    ∃ more, s'.outlog = s.outlog ++ more ∧
      step { s with origin := o, outlog := l } = .next { s' with origin := o, outlog := l ++ more }

/-- The invariant of an instance holds after reset. -/
def Obligations.ResetSatisfiesTheInvariant : Prop := State.Inv State.reset

/-- Every step keeps the invariant: memory stays canonical and within `0 .. MAX_ADDR`, and no instance is both halted and
faulted. Of a step that faults the memory clauses rest on decision D6 (U3, log entry 6). -/
def Obligations.StepKeepsTheInvariant : Prop :=
  ∀ s s' : State, State.Inv s → step s = .next s' → State.Inv s'

/-- Every host command keeps the invariant from every state that meets it, the run commands among them, and every instance
that LOAD_WORDS or LOAD_TEXT creates meets it. Of a command that faults the memory clauses rest on decision D6 (U3, log
entry 6). -/
def Obligations.EveryInstanceKeepsTheInvariant : Prop :=
  (∀ (fuel : Nat) (c : Command) (s s' : State) (r : Response), State.Inv s → issue fuel c s = some (r, s') →
      State.Inv s') ∧
    (∀ (p : Params) (ws : List Word) (s : State) (r : Response), hostLoadWords p ws = (r, some s) → State.Inv s) ∧
    ∀ (p : Params) (text : List Char) (s : State) (r : Response), hostLoadText p text = (r, some s) → State.Inv s

/-- So every instance that LOAD_WORDS creates satisfies the invariant after any list of commands whatever. After a command
that faults the memory clauses rest on decision D6 (U3, log entry 6). -/
def Obligations.EveryCommandSequenceKeepsTheInvariant : Prop :=
  ∀ (p : Params) (ws : List Word) (s s' : State) (r : Response) (cs : List (Nat × Command)) (rs : List Response),
    hostLoadWords p ws = (r, some s) → issueAll cs s = some (rs, s') → State.Inv s'

/-! ### The host port -/

/-- R106: STEP answers the guard's response with nothing changed, or what its one `Step` did: a pause, the fault recorded, or
the id of the instruction executed. -/
def Obligations.StepCommandReportsTheStep : Prop :=
  ∀ s : State,
    (s.halted = true → hostStep s = (.err .alreadyHalted, s)) ∧
    (∀ f, s.halted = false → s.fault = some f → hostStep s = (.faulted f, s)) ∧
    ∀ s', step s = .next s' →
      ∃ r, hostStep s = (r, s') ∧
        (awaitingInput s = true → r = .awaitingInput ∧ s' = s) ∧
        (∀ rec, s'.fault = some rec → r = .faulted rec) ∧
        (awaitingInput s = false → s'.fault = none → r = .ok (.instrId (opcodeId s)))

/-- R122: a recorded fault stays through every command but RESET, POKE included; until then every execution command answers it
and executes nothing. That state is as decision D6 keeps it (U3, log entry 6); this
says only that no command changes it. -/
def Obligations.FaultIsStickyUntilReset : Prop :=
  ∀ (fuel : Nat) (c : Command) (s s' : State) (f : FaultRecord) (r : Response), s.halted = false → s.fault = some f →
    issue fuel c s = some (r, s') →
    (c ≠ .reset → s'.fault = some f ∧ s'.pc = s.pc ∧ s'.rb = s.rb ∧ s'.outlog = s.outlog) ∧
      (c ∈ [Command.step, .run, .runToOutput, .runToInputWait] → r = .faulted f ∧ s' = s) ∧
      (c = .reset → s'.fault = none)

/-- R107, R113: RUN is its steps: one that ends neither the machine nor the run is followed by RUN from the state it left,
and HALT, a pause and a fault are answered as R107 says. And what RUN's answers mean: `Ok(v)` only from a run that ended
well, with `v` the word at address 0; `AwaitingInput` only with an empty queue; `Faulted` only with that record in `FAULT`. -/
def Obligations.RunAnswersOnlyWhatHappened : Prop :=
  (∀ (fuel : Nat) (s t : State), Runnable s →
      (∀ id, hostStep s = (.ok (.instrId id), t) →
        (id ≠ 99 → hostRun (fuel + 1) s = hostRun fuel t) ∧
          (id = 99 → hostRun (fuel + 1) s = some (.ok (.word (Memory.read t.mem 0)), t))) ∧
      (hostStep s = (.awaitingInput, t) → hostRun (fuel + 1) s = some (.awaitingInput, t)) ∧
      ∀ f, hostStep s = (.faulted f, t) → hostRun (fuel + 1) s = some (.faulted f, t)) ∧
    ∀ (fuel : Nat) (s s' : State) (r : Response), hostRun fuel s = some (r, s') →
      (∀ v, r = .ok v → EndsWell s' ∧ v = .word (Memory.read s'.mem 0)) ∧
        (r = .awaitingInput → s'.inq = [] ∧ awaitingInput s' = true) ∧
        (∀ f, r = .faulted f → s'.fault = some f) ∧
        (r = .err .alreadyHalted → s' = s ∧ s.halted = true)

/-- R108: RUN_TO_OUTPUT is its steps: after OUT it answers the pair just appended, after HALT `StarvedForOutput`, after any
other instruction it goes on from the state that left, and a pause and a fault are answered as such. So it answers the one
pair its run appended, or `StarvedForOutput` after a run that halted and appended none. -/
def Obligations.RunToOutputAnswersTheNextPair : Prop :=
  (∀ (fuel : Nat) (s t : State), Runnable s →
      (∀ id, hostStep s = (.ok (.instrId id), t) →
        (id ≠ 4 → id ≠ 99 → hostRunToOutput (fuel + 1) s = hostRunToOutput fuel t) ∧
          (id = 4 → ∃ v, t.outlog = s.outlog ++ [(s.pc, v)] ∧
            hostRunToOutput (fuel + 1) s = some (.ok (.pair s.pc v), t)) ∧
          (id = 99 → hostRunToOutput (fuel + 1) s = some (.err .starvedForOutput, t))) ∧
      (hostStep s = (.awaitingInput, t) → hostRunToOutput (fuel + 1) s = some (.awaitingInput, t)) ∧
      ∀ f, hostStep s = (.faulted f, t) → hostRunToOutput (fuel + 1) s = some (.faulted f, t)) ∧
    ∀ (fuel : Nat) (s s' : State) (r : Response), hostRunToOutput fuel s = some (r, s') →
      (∀ pos v, r = .ok (.pair pos v) → s'.outlog = s.outlog ++ [(pos, v)] ∧ s'.fault = none) ∧
        (r = .err .starvedForOutput → EndsWell s' ∧ s'.outlog = s.outlog) ∧
        (r = .awaitingInput → s'.outlog = s.outlog ∧ s'.inq = [])

/-- R109: RUN_TO_INPUT_WAIT is its steps: a pause answers true, HALT false, a fault its record, and after any other
instruction, OUT among them, it goes on from the state that left. So it answers true only paused on an empty queue, and false
only after a halt. -/
def Obligations.RunToInputWaitTellsPauseFromHalt : Prop :=
  (∀ (fuel : Nat) (s t : State), Runnable s →
      (∀ id, hostStep s = (.ok (.instrId id), t) →
        (id ≠ 99 → hostRunToInputWait (fuel + 1) s = hostRunToInputWait fuel t) ∧
          (id = 99 → hostRunToInputWait (fuel + 1) s = some (.ok (.bool false), t))) ∧
      (hostStep s = (.awaitingInput, t) → hostRunToInputWait (fuel + 1) s = some (.ok (.bool true), t)) ∧
      ∀ f, hostStep s = (.faulted f, t) → hostRunToInputWait (fuel + 1) s = some (.faulted f, t)) ∧
    ∀ (fuel : Nat) (s s' : State) (r : Response), hostRunToInputWait fuel s = some (r, s') →
      (r = .ok (.bool true) → s'.inq = [] ∧ awaitingInput s' = true ∧ s'.fault = none) ∧
        (r = .ok (.bool false) → EndsWell s')

/-- R112: a run command's result does not depend on the fuel once there is one; running out of fuel is no result. -/
def Obligations.MoreFuelGivesTheSameResult : Prop :=
  ∀ (fuel more : Nat) (c : Command) (s s' : State) (r : Response), issue fuel c s = some (r, s') →
    issue (fuel + more) c s = some (r, s')

/-- R103: queued values go to the tail in order and change nothing else, and queuing lifts a pause. -/
def Obligations.QueuedInputGoesToTheTail : Prop :=
  ∀ (s : State) (v : Word) (vs : List Word),
    hostQueueInput v s = (.ok .unit, { s with inq := s.inq ++ [v] }) ∧
      hostQueueInputs vs s = (.ok .unit, { s with inq := s.inq ++ vs }) ∧
      (awaitingInput s = true → awaitingInput (hostQueueInput v s).2 = false)

/-- R104, R110, R111: the queries report the state and change nothing; the last output is the whole pair, and an error where
there is none. -/
def Obligations.QueriesReportAndChangeNothing : Prop :=
  ∀ (s : State) (l : List (Word × Word)) (q : Word × Word),
    hostReadStatus s = (.ok (.status ⟨s.pc, s.rb, s.halted, s.fault, s.inq.length⟩), s) ∧
      hostGetOutputs s = (.ok (.pairs s.outlog), s) ∧
      (s.outlog = l ++ [q] → hostGetLastOutput s = (.ok (.pair q.1 q.2), s)) ∧
      (s.outlog = [] → hostGetLastOutput s = (.err .noOutputYet, s))

/-- R99: every text trims to a body and splits into tokens, and LOAD_TEXT accepts it exactly where these are all signed decimal
numbers of the range of a word, and then loads their values; every other text is malformed and makes no instance. -/
def Obligations.LoadTextAcceptsExactlyTheGrammar : Prop :=
  (∀ text, ∃ body tokens, TrimsTo text body ∧ SplitsTo body tokens) ∧
    ∀ (p : Params) (text body : List Char) (tokens : List (List Char)), TrimsTo text body → SplitsTo body tokens →
      (∀ ws, List.Forall₂ TokenDenotes tokens ws → hostLoadText p text = hostLoadWords p ws) ∧
        ((¬∃ ws, List.Forall₂ TokenDenotes tokens ws) → hostLoadText p text = (.err .malformedProgramText, none))

/-- R125, R29: a command to one instance leaves every other one as it was, and what it does there depends on that instance
alone; a load leaves them all. -/
def Obligations.InstancesShareNoState : Prop :=
  (∀ (fuel k : Nat) (c : Command) (sys sys' : System) (r : Response), systemIssue fuel k c sys = some (r, sys') →
      sys'.instances.length = sys.instances.length ∧
      (∀ j, j ≠ k → sys'.instances[j]? = sys.instances[j]?) ∧
      ∃ s s', sys.instances[k]? = some s ∧ issue fuel c s = some (r, s') ∧ sys'.instances[k]? = some s') ∧
    ∀ (p : Params) (ws : List Word) (text : List Char) (sys : System) (j : Nat), j < sys.instances.length →
      (systemLoadWords p ws sys).2.instances[j]? = sys.instances[j]? ∧
        (systemLoadText p text sys).2.instances[j]? = sys.instances[j]?

/-! ### Frames -/

/-- ADD, MUL, LESS-THAN, EQUALS: in every next state the queues, `RB`, `HALTED`, the origin and the parameters are as before,
`FAULT` is as before or records a fault that changed nothing else, and every word outside the target is as before; where the
target does not resolve, all of memory is. That a fault changes nothing else is decision D6, which U3 bids no claim about the
hardware read (log entry 6). -/
def Obligations.FrameOfTheStoringInstructions : Prop :=
  ∀ (s s' : State) (a b t : Operand) (i : Instr), Memory.wf s.mem →
    i ∈ [Instr.add a b t, .mul a b t, .lessThan a b t, .equals a b t] → exec i s = .next s' →
    SameParamsAndOrigin s s' ∧ s'.rb = s.rb ∧ s'.halted = s.halted ∧ s'.inq = s.inq ∧ s'.outlog = s.outlog ∧
      FaultKeptOrRaised s s' ∧
      (∀ d, writeTarget s 3 t = .ok d → ∀ x, x ≠ d → Memory.read s'.mem x = Memory.read s.mem x) ∧
      (∀ c, writeTarget s 3 t = .error c → s'.mem = s.mem)

/-- IN: as for the storing instructions, but that the queue is as before or loses its head. That a fault changes nothing else
is decision D6 (U3, log entry 6). -/
def Obligations.FrameOfIn : Prop :=
  ∀ (s s' : State) (t : Operand), Memory.wf s.mem → exec (.input t) s = .next s' →
    SameParamsAndOrigin s s' ∧ s'.rb = s.rb ∧ s'.halted = s.halted ∧ s'.outlog = s.outlog ∧
      (s'.inq = s.inq ∨ ∃ v, s.inq = v :: s'.inq) ∧ FaultKeptOrRaised s s' ∧
      (∀ d, writeTarget s 1 t = .ok d → ∀ x, x ≠ d → Memory.read s'.mem x = Memory.read s.mem x) ∧
      (∀ c, writeTarget s 1 t = .error c → s'.mem = s.mem)

/-- OUT, the jumps, ADJUST-BASE and HALT store nothing: memory, the queue, the origin and the parameters are as before; only
OUT changes the log, only ADJUST-BASE `RB`, only HALT `HALTED`. That a fault changes nothing else is decision D6 (U3, log
entry 6). -/
def Obligations.FrameOfTheOtherInstructions : Prop :=
  ∀ (s s' : State) (a b : Operand) (i : Instr),
    i ∈ [Instr.output a, .jumpIfTrue a b, .jumpIfFalse a b, .adjustBase a, .halt] → exec i s = .next s' →
    SameParamsAndOrigin s s' ∧ s'.mem = s.mem ∧ s'.inq = s.inq ∧ FaultKeptOrRaised s s' ∧
      (i ≠ .output a → s'.outlog = s.outlog) ∧ (i ≠ .adjustBase a → s'.rb = s.rb) ∧
      (i ≠ .halt → s'.halted = s.halted)
end

