-- ==== Sys2Proof/Laws/State.lean ====
section
/-! SUPPORT. One lemma per field per update of the state, true by unfolding. -/

namespace Sys2Proof.Machine

section Commit
variable (s : State) (e : Effect)

@[simp] theorem commit_params : (commit s e).params = s.params := rfl
@[simp] theorem commit_origin : (commit s e).origin = s.origin := rfl
@[simp] theorem commit_fault : (commit s e).fault = s.fault := rfl
@[simp] theorem commit_pc : (commit s e).pc = e.pc := rfl
@[simp] theorem commit_rb : (commit s e).rb = e.rb := rfl
@[simp] theorem commit_halted : (commit s e).halted = e.halted := rfl
@[simp] theorem commit_inq : (commit s e).inq = if e.deq then s.inq.tail else s.inq := rfl
theorem commit_mem : (commit s e).mem = match e.mem with
    | none => s.mem
    | some (a, v) => Memory.write s.mem a v := rfl
theorem commit_outlog : (commit s e).outlog = match e.out with
    | none => s.outlog
    | some pair => s.outlog ++ [pair] := rfl
@[simp] theorem commit_mem_none (h : e.mem = none) : (commit s e).mem = s.mem := by simp [commit_mem, h]
@[simp] theorem commit_mem_some {d : Nat} {v : Word} (h : e.mem = some (d, v)) :
    (commit s e).mem = Memory.write s.mem d v := by simp [commit_mem, h]
@[simp] theorem commit_outlog_none (h : e.out = none) : (commit s e).outlog = s.outlog := by simp [commit_outlog, h]
@[simp] theorem commit_outlog_some {q : Word × Word} (h : e.out = some q) :
    (commit s e).outlog = s.outlog ++ [q] := by simp [commit_outlog, h]

end Commit

section KeepBut
variable (s : State) (pc : Word)

@[simp] theorem keepBut_mem : (keepBut s pc).mem = none := rfl
@[simp] theorem keepBut_pc : (keepBut s pc).pc = pc := rfl
@[simp] theorem keepBut_rb : (keepBut s pc).rb = s.rb := rfl
@[simp] theorem keepBut_halted : (keepBut s pc).halted = s.halted := rfl
@[simp] theorem keepBut_deq : (keepBut s pc).deq = false := rfl
@[simp] theorem keepBut_out : (keepBut s pc).out = none := rfl

end KeepBut

section Raise
variable (s : State) (c : Cause)

@[simp] theorem raise_params : (raise s c).params = s.params := rfl
@[simp] theorem raise_mem : (raise s c).mem = s.mem := rfl
@[simp] theorem raise_origin : (raise s c).origin = s.origin := rfl
@[simp] theorem raise_pc : (raise s c).pc = s.pc := rfl
@[simp] theorem raise_rb : (raise s c).rb = s.rb := rfl
@[simp] theorem raise_halted : (raise s c).halted = s.halted := rfl
@[simp] theorem raise_fault : (raise s c).fault = some { cause := c, pc := s.pc } := rfl
@[simp] theorem raise_inq : (raise s c).inq = s.inq := rfl
@[simp] theorem raise_outlog : (raise s c).outlog = s.outlog := rfl

end Raise

end Sys2Proof.Machine
end

