-- ==== Sys2Proof/Laws/Ops.lean ====
section
/-! SUPPORT. What each shared operation can do, said once: the address check, overflow, the sequential PC, the resolver, the
handlers' effect records, the decoder, and one step. -/

namespace Sys2Proof.Machine

/-! ### Addresses and words -/

theorem inRange_iff {p : Params} {a : Int} : inRange p a = true ↔ 0 ≤ a ∧ a ≤ (p.maxAddr.val : Int) := by
  simp [inRange]

theorem fits64_iff {v : Int} : fits64 v = true ↔ -(2 ^ 63) ≤ v ∧ v ≤ 2 ^ 63 - 1 := by
  simp [fits64]

/-- Where a value fits, its word reads back as it (00_scope.md R12). -/
theorem toInt_wrap64 {v : Int} (h : fits64 v = true) : (wrap64 v).toInt = v := by
  have := fits64_iff.1 h
  rw [wrap64, BitVec.toInt_ofInt]
  exact Int.bmod_eq_of_le (by omega) (by omega)

/-- A wrapped word is congruent to the exact value modulo 2^64 (00_scope.md R12). -/
theorem toInt_wrap64_emod (v : Int) : ((wrap64 v).toInt - v) % 2 ^ 64 = 0 := by
  rw [wrap64, BitVec.toInt_ofInt, ← Int.emod_eq_emod_iff_emod_sub_eq_zero]
  exact Int.bmod_emod

theorem checkAddr_ok {p : Params} {a : Int} {n : Nat} :
    checkAddr p a = .ok n ↔ (0 ≤ a ∧ a ≤ (p.maxAddr.val : Int)) ∧ n = a.toNat := by
  unfold checkAddr
  split
  · rename_i h
    simp [inRange_iff.1 h, eq_comm]
  · rename_i h
    simp only [reduceCtorEq, false_iff, not_and]
    exact fun h' => absurd (inRange_iff.2 h') h

theorem checkAddr_error {p : Params} {a : Int} {c : Cause} :
    checkAddr p a = .error c ↔ ¬(0 ≤ a ∧ a ≤ (p.maxAddr.val : Int)) ∧ c = .addressOutOfRange a := by
  unfold checkAddr
  split
  · rename_i h
    simp [inRange_iff.1 h]
  · rename_i h
    rw [← inRange_iff]
    simp [h, eq_comm]

theorem checkAddr_le {p : Params} {a : Int} {n : Nat} (h : checkAddr p a = .ok n) : n ≤ p.maxAddr.val := by
  obtain ⟨h, rfl⟩ := checkAddr_ok.1 h
  omega

theorem seqPC_ok {s : State} {n : Nat} {pc : Word} :
    seqPC s n = .ok pc ↔ fits64 (s.pc.toInt + 1 + n) = true ∧ pc = wrap64 (s.pc.toInt + 1 + n) := by
  unfold seqPC
  simp only
  split <;> rename_i hf
  · rw [Except.ok.injEq, eq_comm]
    simp only [hf, true_and]
  · simp only [hf, reduceCtorEq, Bool.false_eq_true, false_and]

theorem seqPC_error {s : State} {n : Nat} {c : Cause} :
    seqPC s n = .error c ↔ fits64 (s.pc.toInt + 1 + n) = false ∧ c = .addressOutOfRange (s.pc.toInt + 1 + n) := by
  unfold seqPC
  simp only
  split <;> rename_i hf
  · simp only [hf, reduceCtorEq, Bool.true_eq_false, false_and]
  · rw [Bool.not_eq_true] at hf
    rw [Except.error.injEq, eq_comm]
    simp only [hf, true_and]

/-- R82: the value committed is the exact result where it fits; where it does not, the policy is `wrap` and it is wrapped. -/
theorem narrow_ok {p : Params} {op : ArithOp} {a b r : Word} {v : Int} :
    narrow p op a b v = .ok r ↔ (fits64 v = true ∨ p.overflow = .wrap) ∧ r = wrap64 v := by
  unfold narrow
  split
  · rename_i hf
    rw [Except.ok.injEq, eq_comm]
    simp only [hf, true_or, true_and]
  · rename_i hf
    split <;> rename_i hp
    · simp only [hf, hp, reduceCtorEq, Bool.false_eq_true, or_self, false_and]
    · rw [Except.ok.injEq, eq_comm]
      simp only [hp, or_true, true_and]

theorem narrow_error {p : Params} {op : ArithOp} {a b : Word} {v : Int} {c : Cause} :
    narrow p op a b v = .error c ↔
      fits64 v = false ∧ p.overflow = .fault ∧ c = .arithmeticOverflow op a b := by
  unfold narrow
  split
  · rename_i hf
    simp only [hf, reduceCtorEq, Bool.true_eq_false, false_and]
  · rename_i hf
    rw [Bool.not_eq_true] at hf
    split <;> rename_i hp
    · rw [Except.error.injEq, eq_comm]
      simp only [hf, hp, true_and]
    · simp only [hp, reduceCtorEq, false_and, and_false]

/-! ### The guard, the end of an instruction, the fetch -/

theorem guardFault_none {s : State} : guardFault s = none ↔ s.halted = false ∧ s.fault = none := by
  unfold guardFault
  cases s.halted <;> cases s.fault <;> simp

theorem complete_next {s s' : State} {r : Except Cause Effect} :
    complete s r = .next s' ↔ (∃ e, r = .ok e ∧ s' = commit s e) ∨ (∃ c, r = .error c ∧ s' = raise s c) := by
  unfold complete
  cases r <;> simp [eq_comm]

theorem fetch_ok {s : State} {ws : List Word} :
    fetch s = .ok ws ↔ (0 ≤ s.pc.toInt ∧ s.pc.toInt ≤ (s.params.maxAddr.val : Int)) ∧
      ws = [Memory.read s.mem s.pc.toInt.toNat, Memory.read s.mem (s.pc.toInt.toNat + 1),
        Memory.read s.mem (s.pc.toInt.toNat + 2), Memory.read s.mem (s.pc.toInt.toNat + 3)] := by
  unfold fetch
  cases h : checkAddr s.params s.pc.toInt with
  | error c =>
    simp only [reduceCtorEq, false_iff, not_and]
    exact fun h' => absurd h' (checkAddr_error.1 h).1
  | ok n =>
    obtain ⟨hr, rfl⟩ := checkAddr_ok.1 h
    simp [hr, maxInstrWords, List.range_succ, eq_comm]

theorem fetch_error {s : State} {c : Cause} :
    fetch s = .error c ↔
      ¬(0 ≤ s.pc.toInt ∧ s.pc.toInt ≤ (s.params.maxAddr.val : Int)) ∧ c = .addressOutOfRange s.pc.toInt := by
  unfold fetch
  cases h : checkAddr s.params s.pc.toInt with
  | error c' =>
    obtain ⟨h1, rfl⟩ := checkAddr_error.1 h
    simp [h1, eq_comm]
  | ok n => simp [(checkAddr_ok.1 h).1]

/-! ### The resolver -/

theorem readAt_ok {s : State} {a : Int} {v : Word} :
    readAt s a = .ok v ↔ (0 ≤ a ∧ a ≤ (s.params.maxAddr.val : Int)) ∧ v = Memory.read s.mem a.toNat := by
  unfold readAt
  cases h : checkAddr s.params a with
  | error c =>
    simp only [reduceCtorEq, false_iff, not_and]
    exact fun h' => absurd h' (checkAddr_error.1 h).1
  | ok n =>
    obtain ⟨hr, rfl⟩ := checkAddr_ok.1 h
    simp [hr, eq_comm]

theorem readAt_error {s : State} {a : Int} {c : Cause} :
    readAt s a = .error c ↔ ¬(0 ≤ a ∧ a ≤ (s.params.maxAddr.val : Int)) ∧ c = .addressOutOfRange a := by
  unfold readAt
  cases h : checkAddr s.params a with
  | error c' =>
    obtain ⟨h1, rfl⟩ := checkAddr_error.1 h
    simp [h1, eq_comm]
  | ok n => simp [(checkAddr_ok.1 h).1]

theorem operandWord_ok {s : State} {i : Nat} {o : Operand} {k : Word} :
    operandWord s i o = .ok k ↔
      (0 ≤ s.pc.toInt + i ∧ s.pc.toInt + i ≤ (s.params.maxAddr.val : Int)) ∧ k = o.word := by
  unfold operandWord
  cases h : checkAddr s.params (s.pc.toInt + i) with
  | error c =>
    simp only [reduceCtorEq, false_iff, not_and]
    exact fun h' => absurd h' (checkAddr_error.1 h).1
  | ok n => simp [(checkAddr_ok.1 h).1, eq_comm]

/-- The address of a parameter word that is no address faults before anything else of the parameter (R73, R74, R78). -/
theorem operandWord_error {s : State} {i : Nat} {o : Operand} {c : Cause} :
    operandWord s i o = .error c ↔
      ¬(0 ≤ s.pc.toInt + i ∧ s.pc.toInt + i ≤ (s.params.maxAddr.val : Int)) ∧
        c = .addressOutOfRange (s.pc.toInt + i) := by
  unfold operandWord
  cases h : checkAddr s.params (s.pc.toInt + i) with
  | error c' =>
    obtain ⟨h1, rfl⟩ := checkAddr_error.1 h
    simp [h1, eq_comm]
  | ok n => simp [(checkAddr_ok.1 h).1]

/-- What `ReadOperand` answers once the parameter word is fetched, by mode (R73). -/
theorem readOperand_of_word {s : State} {i : Nat} {o : Operand}
    (h : 0 ≤ s.pc.toInt + i ∧ s.pc.toInt + i ≤ (s.params.maxAddr.val : Int)) :
    readOperand s i o =
      match o.mode with
      | .position => readAt s o.word.toInt
      | .immediate => .ok o.word
      | .relative => readAt s (o.word.toInt + s.rb.toInt)
      | .reserved d => .error (.invalidAddressingMode i (3 + d.val)) := by
  rw [readOperand, operandWord_ok.2 ⟨h, rfl⟩]
  cases o.mode <;> rfl

/-- What `WriteTarget` answers once the parameter word is fetched, by mode (R74). -/
theorem writeTarget_of_word {s : State} {i : Nat} {o : Operand}
    (h : 0 ≤ s.pc.toInt + i ∧ s.pc.toInt + i ≤ (s.params.maxAddr.val : Int)) :
    writeTarget s i o =
      match o.mode with
      | .position => checkAddr s.params o.word.toInt
      | .immediate => .error (.invalidAddressingMode i 1)
      | .relative => checkAddr s.params (o.word.toInt + s.rb.toInt)
      | .reserved d => .error (.invalidAddressingMode i (3 + d.val)) := by
  rw [writeTarget, operandWord_ok.2 ⟨h, rfl⟩]
  cases o.mode <;> rfl

/-- A write target that resolves is an address of the instance (R74). -/
theorem writeTarget_le {s : State} {i : Nat} {o : Operand} {d : Nat} (h : writeTarget s i o = .ok d) :
    d ≤ s.params.maxAddr.val := by
  unfold writeTarget at h
  split at h
  · cases h
  · split at h
    · exact checkAddr_le h
    · cases h
    · exact checkAddr_le h
    · cases h

theorem readTwo_ok {s : State} {a b : Operand} {x y : Word} :
    readTwo s a b = .ok (x, y) ↔ readOperand s 1 a = .ok x ∧ readOperand s 2 b = .ok y := by
  unfold readTwo
  cases readOperand s 1 a <;> cases readOperand s 2 b <;> simp

/-! ### The handlers' effect records (40_decode_and_operands.md R71) -/

theorem readReadWrite_ok {s : State} {a b t : Operand} {f : Word → Word → Except Cause Word} {e : Effect} :
    readReadWrite s a b t f = .ok e ↔
      ∃ x y d r pc, readOperand s 1 a = .ok x ∧ readOperand s 2 b = .ok y ∧ writeTarget s 3 t = .ok d ∧
        f x y = .ok r ∧ seqPC s 3 = .ok pc ∧ e = { keepBut s pc with mem := some (d, r) } := by
  unfold readReadWrite
  cases h : readTwo s a b with
  | error c =>
    simp only [reduceCtorEq, false_iff, not_exists, not_and]
    intro x y d r pc h1 h2
    rw [readTwo_ok.2 ⟨h1, h2⟩] at h
    cases h
  | ok q =>
    obtain ⟨x, y⟩ := q
    obtain ⟨h1, h2⟩ := readTwo_ok.1 h
    simp only [h1, h2, Except.ok.injEq]
    cases writeTarget s 3 t with
    | error c => simp
    | ok d =>
      cases hf : f x y with
      | error c => simp [hf]
      | ok r => cases seqPC s 3 <;> simp [hf, eq_comm]

theorem jumpWhen_ok {s : State} {a b : Operand} {taken : Word → Bool} {e : Effect} :
    jumpWhen s a b taken = .ok e ↔
      ∃ x y, readOperand s 1 a = .ok x ∧ readOperand s 2 b = .ok y ∧
        ((taken x = true ∧ e = keepBut s y) ∨
          (taken x = false ∧ ∃ pc, seqPC s 2 = .ok pc ∧ e = keepBut s pc)) := by
  unfold jumpWhen
  cases h : readTwo s a b with
  | error c =>
    simp only [reduceCtorEq, false_iff, not_exists, not_and]
    intro x y h1 h2
    rw [readTwo_ok.2 ⟨h1, h2⟩] at h
    cases h
  | ok q =>
    obtain ⟨x, y⟩ := q
    obtain ⟨h1, h2⟩ := readTwo_ok.1 h
    simp only [h1, h2, Except.ok.injEq]
    cases ht : taken x <;> cases seqPC s 2 <;> simp [ht, eq_comm]

theorem takeInput_ok {s : State} {t : Operand} {v : Word} {e : Effect} :
    takeInput s t v = .ok e ↔
      ∃ d pc, writeTarget s 1 t = .ok d ∧ seqPC s 1 = .ok pc ∧
        e = { keepBut s pc with mem := some (d, v), deq := true } := by
  unfold takeInput
  cases writeTarget s 1 t <;> cases seqPC s 1 <;> simp [eq_comm]

theorem emitOutput_ok {s : State} {a : Operand} {e : Effect} :
    emitOutput s a = .ok e ↔
      ∃ x pc, readOperand s 1 a = .ok x ∧ seqPC s 1 = .ok pc ∧ e = { keepBut s pc with out := some (s.pc, x) } := by
  unfold emitOutput
  cases readOperand s 1 a <;> cases seqPC s 1 <;> simp [eq_comm]

theorem haltEffect_ok {s : State} {e : Effect} :
    haltEffect s = .ok e ↔ ∃ pc, seqPC s 0 = .ok pc ∧ e = { keepBut s pc with halted := true } := by
  unfold haltEffect
  cases seqPC s 0 <;> simp [eq_comm]

theorem adjustEffect_ok {s : State} {a : Operand} {e : Effect} :
    adjustEffect s a = .ok e ↔
      ∃ x r pc, readOperand s 1 a = .ok x ∧ narrow s.params .adjustBase s.rb x (s.rb.toInt + x.toInt) = .ok r ∧
        seqPC s 1 = .ok pc ∧ e = { keepBut s pc with rb := r } := by
  unfold adjustEffect
  cases readOperand s 1 a with
  | error c => simp
  | ok x =>
    simp only [Except.ok.injEq]
    cases hn : narrow s.params .adjustBase s.rb x (s.rb.toInt + x.toInt) with
    | error c => simp [hn]
    | ok r => cases seqPC s 1 <;> simp [hn, eq_comm]

/-! ### What an instruction may write (10_state.md R31) -/

/-- The effect records the table of R31 allows the instruction `i` in state `s`. -/
structure EffectAllowed (i : Instr) (s : State) (e : Effect) : Prop where
  mem_addr : ∀ d v, e.mem = some (d, v) → d ≤ s.params.maxAddr.val
  mem_none : i.opcode ≠ .add → i.opcode ≠ .mul → i.opcode ≠ .input → i.opcode ≠ .lessThan → i.opcode ≠ .equals →
    e.mem = none
  rb_kept : i.opcode ≠ .adjustBase → e.rb = s.rb
  halted_kept : i.opcode ≠ .halt → e.halted = s.halted
  halted_set : i.opcode = .halt → e.halted = true
  deq_kept : i.opcode ≠ .input → e.deq = false
  deq_set : i.opcode = .input → e.deq = true ∧ s.inq ≠ []
  out_kept : i.opcode ≠ .output → e.out = none
  out_set : i.opcode = .output → ∃ v, e.out = some (s.pc, v)

/-- `exec` always answers a next state: the instruction commits an effect R31 allows it, or takes its fault, or is an IN that
pauses on an empty queue. -/
theorem exec_cases (i : Instr) (s : State) :
    (∃ e, EffectAllowed i s e ∧ exec i s = .next (commit s e)) ∨ (∃ c, exec i s = .next (raise s c)) ∨
      (i.opcode = .input ∧ s.inq = [] ∧ exec i s = .next s) := by
  have fin : ∀ r : Except Cause Effect, exec i s = complete s r → (∀ e, r = .ok e → EffectAllowed i s e) →
      (∃ e, EffectAllowed i s e ∧ exec i s = .next (commit s e)) ∨ (∃ c, exec i s = .next (raise s c)) ∨
        (i.opcode = .input ∧ s.inq = [] ∧ exec i s = .next s) := by
    intro r hr h
    cases r with
    | ok e => exact .inl ⟨e, h e rfl, hr⟩
    | error c => exact .inr (.inl ⟨c, hr⟩)
  have rrw : ∀ {a b t f}, (i.opcode = .add ∨ i.opcode = .mul ∨ i.opcode = .lessThan ∨ i.opcode = .equals) →
      ∀ e, readReadWrite s a b t f = .ok e → EffectAllowed i s e := by
    intro a b t f hop e he
    obtain ⟨x, y, d, r, pc, -, -, hd, -, -, rfl⟩ := readReadWrite_ok.1 he
    have := writeTarget_le hd
    constructor <;> rcases hop with h | h | h | h <;> simp [h] <;> omega
  have jmp : ∀ {a b taken}, (i.opcode = .jumpIfTrue ∨ i.opcode = .jumpIfFalse) →
      ∀ e, jumpWhen s a b taken = .ok e → EffectAllowed i s e := by
    intro a b taken hop e he
    obtain ⟨x, y, -, -, ⟨-, rfl⟩ | ⟨-, pc, -, rfl⟩⟩ := jumpWhen_ok.1 he <;>
      constructor <;> rcases hop with h | h <;> simp [h]
  cases i with
  | add a b t => exact fin _ rfl (rrw (by simp [Instr.opcode]))
  | mul a b t => exact fin _ rfl (rrw (by simp [Instr.opcode]))
  | lessThan a b t => exact fin _ rfl (rrw (by simp [Instr.opcode]))
  | equals a b t => exact fin _ rfl (rrw (by simp [Instr.opcode]))
  | jumpIfTrue a b => exact fin _ rfl (jmp (by simp [Instr.opcode]))
  | jumpIfFalse a b => exact fin _ rfl (jmp (by simp [Instr.opcode]))
  | input t =>
    cases hq : s.inq with
    | nil => exact .inr (.inr ⟨rfl, rfl, by simp [exec, execInput, hq, pause]⟩)
    | cons v q =>
      refine (fin (takeInput s t v) (by simp [exec, execInput, hq]) fun e he => ?_).imp id (Or.imp id ?_)
      · obtain ⟨d, pc, hd, -, rfl⟩ := takeInput_ok.1 he
        have := writeTarget_le hd
        constructor <;> simp [Instr.opcode, hq]
        omega
      · simp [hq]
  | output a =>
    refine fin _ rfl fun e he => ?_
    obtain ⟨x, pc, -, -, rfl⟩ := emitOutput_ok.1 he
    constructor <;> simp [Instr.opcode]
  | adjustBase a =>
    refine fin _ rfl fun e he => ?_
    obtain ⟨x, r, pc, -, -, -, rfl⟩ := adjustEffect_ok.1 he
    constructor <;> simp [Instr.opcode]
  | halt =>
    refine fin _ rfl fun e he => ?_
    obtain ⟨pc, -, rfl⟩ := haltEffect_ok.1 he
    constructor <;> simp [Instr.opcode]

/-! ### The decoder -/

theorem build_opcode (op : Opcode) (o : Nat → Operand) : (Instr.build op o).opcode = op := by
  cases op <;> rfl

theorem ofId_some {n : Nat} {op : Opcode} (h : Opcode.ofId n = some op) : op.id = n := by
  unfold Opcode.ofId at h
  split_ifs at h with h1
  all_goals
    cases h
    simp_all [Opcode.id]

theorem ofId_id (op : Opcode) : Opcode.ofId op.id = some op := by cases op <;> rfl

/-- A word list that decodes: its opcode word is not negative, its id is the instruction's, its extra digits are 0 under the
policy `fault`, and the operands are those of R54. -/
theorem decode_ok {policy : ExtraDigitPolicy} {ws : List Word} {i : Instr} :
    decode policy ws = .ok i ↔
      0 ≤ (ws.getD 0 0).toInt ∧ Opcode.ofId ((ws.getD 0 0).toNat % 100) = some i.opcode ∧
        ¬(extraDigits i.opcode (ws.getD 0 0).toNat ≠ 0 ∧ policy = .fault) ∧
        i = Instr.build i.opcode (operandAt (ws.getD 0 0).toNat ws) := by
  unfold decode
  simp only
  split
  · rename_i h
    simp only [reduceCtorEq, false_iff, not_and]
    omega
  · rename_i h
    cases hid : Opcode.ofId ((ws.getD 0 0).toNat % 100) with
    | none => simp
    | some op =>
      simp only [Option.some.injEq]
      split
      · rename_i hx
        simp only [reduceCtorEq, false_iff]
        rintro ⟨-, rfl, h3, -⟩
        exact h3 hx
      · rename_i hx
        constructor
        · rintro h'
          cases h'
          exact ⟨by omega, by rw [build_opcode], by rwa [build_opcode], by rw [build_opcode]⟩
        · rintro ⟨-, rfl, -, h4⟩
          exact congrArg _ h4.symm

/-- Why a word list decodes to nothing. -/
theorem decode_error {policy : ExtraDigitPolicy} {ws : List Word} {e : Reject} (h : decode policy ws = .error e) :
    (e = .unknownOpcode (ws.getD 0 0) ∧
        ((ws.getD 0 0).toInt < 0 ∨ Opcode.ofId ((ws.getD 0 0).toNat % 100) = none)) ∨
      ∃ op, 0 ≤ (ws.getD 0 0).toInt ∧ Opcode.ofId ((ws.getD 0 0).toNat % 100) = some op ∧ policy = .fault ∧
        extraDigits op (ws.getD 0 0).toNat ≠ 0 ∧ e = .extraDigits op (extraDigits op (ws.getD 0 0).toNat) := by
  unfold decode at h
  simp only at h
  split at h
  · rename_i hw
    cases h
    exact .inl ⟨rfl, .inl hw⟩
  · cases hid : Opcode.ofId ((ws.getD 0 0).toNat % 100) with
    | none =>
      simp only [hid] at h
      cases h
      exact .inl ⟨rfl, .inr rfl⟩
    | some op =>
      simp only [hid] at h
      split at h
      · rename_i hx
        cases h
        exact .inr ⟨op, by omega, rfl, hx.2, hx.1, rfl⟩
      · cases h

/-! ### One step -/

/-- The pause predicate over the opcode word (10_state.md R28). -/
theorem awaitingInput_iff {s : State} :
    awaitingInput s = true ↔
      (0 ≤ s.pc.toInt ∧ s.pc.toInt ≤ (s.params.maxAddr.val : Int)) ∧
        0 ≤ (Memory.read s.mem s.pc.toInt.toNat).toInt ∧
        (Memory.read s.mem s.pc.toInt.toNat).toNat % 100 = 3 ∧ s.inq = [] := by
  unfold awaitingInput
  cases h : fetch s with
  | error c =>
    simp only [Bool.false_eq_true, false_iff, not_and]
    exact fun h' => absurd h' (fetch_error.1 h).1
  | ok ws =>
    obtain ⟨h1, rfl⟩ := fetch_ok.1 h
    simp [h1, Opcode.id, and_assoc]

/-- What `Step` can do: take a fault, pause, or commit an effect R31 allows the instruction decoded. -/
theorem cycle_cases (s : State) :
    (∃ c, cycle s = .next (raise s c) ∧ awaitingInput s = false) ∨
      (cycle s = .next s ∧ awaitingInput s = true) ∨
      ∃ i e, Opcode.id i.opcode = (Memory.read s.mem s.pc.toInt.toNat).toNat % 100 ∧ EffectAllowed i s e ∧
        cycle s = .next (commit s e) ∧ awaitingInput s = false := by
  have notAwaiting : (awaitingInput s = true → False) → awaitingInput s = false := by
    cases awaitingInput s <;> simp
  cases hf : fetch s with
  | error c =>
    refine .inl ⟨c, by simp [cycle, hf], notAwaiting fun h => ?_⟩
    exact (fetch_error.1 hf).1 (awaitingInput_iff.1 h).1
  | ok ws =>
    obtain ⟨hpc, hws⟩ := fetch_ok.1 hf
    have hw : ws.getD 0 0 = Memory.read s.mem s.pc.toInt.toNat := by simp [hws]
    cases hd : decode s.params.extraDigit ws with
    | error e =>
      have hc : cycle s = rejectOutcome s e := by simp [cycle, hf, hd]
      rcases decode_error hd with ⟨rfl, hbad⟩ | ⟨op, h0, hop, -, hx, rfl⟩
      · refine .inl ⟨_, hc, notAwaiting fun h => ?_⟩
        obtain ⟨-, h1, h2, -⟩ := awaitingInput_iff.1 h
        rw [hw] at hbad
        rcases hbad with hbad | hbad
        · omega
        · rw [h2] at hbad
          cases hbad
      · rw [hw] at h0 hop
        by_cases hp : op = .input ∧ s.inq = []
        · refine .inr (.inl ⟨by rw [hc, rejectOutcome, if_pos hp, pause], awaitingInput_iff.2 ⟨hpc, h0, ?_, hp.2⟩⟩)
          rw [← ofId_some hop, hp.1, Opcode.id]
        · refine .inl ⟨.invalidAddressingMode 0 _, by rw [hc, rejectOutcome, if_neg hp], notAwaiting fun h => hp ?_⟩
          obtain ⟨-, -, h2, h3⟩ := awaitingInput_iff.1 h
          rw [h2] at hop
          cases hop
          exact ⟨rfl, h3⟩
    | ok i =>
      have hc : cycle s = exec i s := by simp [cycle, hf, hd]
      obtain ⟨h0, hid, -, -⟩ := decode_ok.1 hd
      rw [hw] at h0 hid
      have hid' := ofId_some hid
      by_cases haw : awaitingInput s = true
      · obtain ⟨-, -, h2, h3⟩ := awaitingInput_iff.1 haw
        have hin : i.opcode = .input := by
          rw [h2] at hid
          exact (Option.some.inj hid).symm
        refine .inr (.inl ⟨?_, haw⟩)
        rw [hc]
        cases i <;> simp_all [Instr.opcode, exec, execInput, pause]
      · have haw' := notAwaiting haw
        rcases exec_cases i s with ⟨e, he, hx⟩ | ⟨c, hx⟩ | ⟨hin, hq, -⟩
        · exact .inr (.inr ⟨i, e, hid', he, hc.trans hx, haw'⟩)
        · exact .inl ⟨c, hc.trans hx, haw'⟩
        · exact absurd (awaitingInput_iff.2 ⟨hpc, h0, by rw [← hid', hin]; rfl, hq⟩) haw

/-- A step answers a next state exactly where the guard passes, and then it is `Step`'s. -/
theorem step_next {s s' : State} :
    step s = .next s' ↔ (s.halted = false ∧ s.fault = none) ∧ cycle s = .next s' := by
  rw [← guardFault_none]
  unfold step guardedCycle
  cases guardFault s <;> simp

/-- What a step that answers a next state can have done. -/
theorem step_cases {s s' : State} (h : step s = .next s') :
    (s.halted = false ∧ s.fault = none) ∧
      ((∃ c, s' = raise s c ∧ awaitingInput s = false) ∨ (s' = s ∧ awaitingInput s = true) ∨
        ∃ i e, Opcode.id i.opcode = (Memory.read s.mem s.pc.toInt.toNat).toNat % 100 ∧ EffectAllowed i s e ∧
          s' = commit s e ∧ awaitingInput s = false) := by
  obtain ⟨hg, hc⟩ := step_next.1 h
  refine ⟨hg, ?_⟩
  rcases cycle_cases s with ⟨c, h1, h2⟩ | ⟨h1, h2⟩ | ⟨i, e, h1, h2, h3, h4⟩
  · rw [h1] at hc
    cases hc
    exact .inl ⟨c, rfl, h2⟩
  · rw [h1] at hc
    cases hc
    exact .inr (.inl ⟨rfl, h2⟩)
  · rw [h3] at hc
    cases hc
    exact .inr (.inr ⟨i, e, h1, h2, rfl, h4⟩)

/-! ### The host port's view of one step -/

/-- The state after `Step` is the cycle's next state. -/
theorem stepResult_snd {s s' : State} (h : cycle s = .next s') : (stepResult s).2 = s' := by
  simp only [stepResult, h]
  split
  · rfl
  · split <;> rfl

/-- `Step` as the execution commands see it, from a state the guard lets through. -/
theorem stepResult_cases (s : State) (hf : s.fault = none) :
    (∃ c, stepResult s = (.faulted { cause := c, pc := s.pc }, raise s c)) ∨
      (stepResult s = (.paused, s) ∧ awaitingInput s = true) ∨
      ∃ i e, Opcode.id i.opcode = (Memory.read s.mem s.pc.toInt.toNat).toNat % 100 ∧ EffectAllowed i s e ∧
        stepResult s = (.done (Opcode.id i.opcode), commit s e) := by
  rcases cycle_cases s with ⟨c, h1, h2⟩ | ⟨h1, h2⟩ | ⟨i, e, h1, h2, h3, h4⟩
  · exact .inl ⟨c, by simp [stepResult, h1, h2]⟩
  · exact .inr (.inl ⟨by simp [stepResult, h1, h2], h2⟩)
  · exact .inr (.inr ⟨i, e, h1, h2, by simp [stepResult, h3, h4, hf, h1]⟩)

end Sys2Proof.Machine
end

