-- ==== Sys2Proof/Laws/Host.lean ====
section
/-! SUPPORT. The run commands' induction, packaged once: the result of a loop is the answer to its last step, and what every
step that goes on keeps holds before that step. -/

namespace Sys2Proof.Machine

theorem runLoop_last {answer : StepResult → State → Option Response} {P : State → Prop}
    (keeps : ∀ s, P s → answer (stepResult s).1 (stepResult s).2 = none → P (stepResult s).2)
    {fuel : Nat} {s s' : State} {r : Response} (hs : P s) (h : runLoop answer fuel s = some (r, s')) :
    ∃ t, P t ∧ s' = (stepResult t).2 ∧ answer (stepResult t).1 (stepResult t).2 = some r := by
  induction fuel generalizing s with
  | zero => simp [runLoop] at h
  | succ fuel ih =>
    simp only [runLoop] at h
    cases ha : answer (stepResult s).1 (stepResult s).2 with
    | some r' =>
      rw [ha] at h
      cases h
      exact ⟨s, hs, rfl, ha⟩
    | none =>
      rw [ha] at h
      exact ih (keeps s hs ha) h

/-- A run command: the guard's response with nothing changed, or the loop's result from a state the guard lets through. -/
theorem runCommand_cases {answer : StepResult → State → Option Response} {fuel : Nat} {s s' : State} {r : Response}
    (h : runCommand answer fuel s = some (r, s')) :
    (∃ f, guardFault s = some f ∧ r = guardResponse f ∧ s' = s) ∨
      ((s.halted = false ∧ s.fault = none) ∧ runLoop answer fuel s = some (r, s')) := by
  unfold runCommand at h
  cases hg : guardFault s with
  | some f =>
    rw [hg] at h
    cases h
    exact .inl ⟨f, rfl, rfl, rfl⟩
  | none =>
    rw [hg] at h
    exact .inr ⟨guardFault_none.1 hg, h⟩

/-- A step that is done leaves no fault, and leaves `HALTED` clear unless it ran HALT. -/
theorem stepResult_done {s s' : State} {id : Nat} (hh : s.halted = false) (hf : s.fault = none)
    (h : stepResult s = (.done id, s')) : s'.fault = none ∧ (s'.halted = true ↔ id = 99) := by
  rcases stepResult_cases s hf with ⟨c, h1⟩ | ⟨h1, -⟩ | ⟨i, e, -, he, h1⟩
  · rw [h1] at h
    cases h
  · rw [h1] at h
    cases h
  · rw [h1] at h
    cases h
    refine ⟨hf, ?_⟩
    rw [commit_halted]
    by_cases hi : i.opcode = .halt
    · simp [he.halted_set hi, hi, Opcode.id]
    · rw [he.halted_kept hi, hh]
      cases hop : i.opcode <;> simp_all [Opcode.id]

/-- The answer of a run command goes on only after a step that is done and is not HALT. -/
def GoesOnOnlyWhenDone (answer : StepResult → State → Option Response) : Prop :=
  ∀ r s, answer r s = none → ∃ id, r = .done id ∧ id ≠ 99

theorem runAnswer_goesOn : GoesOnOnlyWhenDone runAnswer := by
  intro r s h
  cases r <;> simp [runAnswer] at h
  exact ⟨_, rfl, h⟩

theorem runToInputWaitAnswer_goesOn : GoesOnOnlyWhenDone runToInputWaitAnswer := by
  intro r s h
  cases r <;> simp [runToInputWaitAnswer] at h
  exact ⟨_, rfl, h⟩

theorem runToOutputAnswer_goesOn : GoesOnOnlyWhenDone runToOutputAnswer := by
  intro r s h
  cases r with
  | done id =>
    refine ⟨id, rfl, ?_⟩
    rintro rfl
    simp [runToOutputAnswer, Opcode.id] at h
  | _ => simp [runToOutputAnswer] at h

/-- What a run command's result says of its last step, from a property `P` that the steps that go on keep. -/
theorem runCommand_last {answer : StepResult → State → Option Response} (goes : GoesOnOnlyWhenDone answer)
    {P : State → Prop}
    (keeps : ∀ s id s', P s → (s.halted = false ∧ s.fault = none) → stepResult s = (.done id, s') →
      answer (.done id) s' = none → P s')
    {fuel : Nat} {s s' : State} {r : Response} (hs : P s) (h : runCommand answer fuel s = some (r, s')) :
    (∃ f, guardFault s = some f ∧ r = guardResponse f ∧ s' = s) ∨
      ∃ t, P t ∧ (t.halted = false ∧ t.fault = none) ∧ s' = (stepResult t).2 ∧
        answer (stepResult t).1 (stepResult t).2 = some r := by
  rcases runCommand_cases h with h | ⟨hr, hl⟩
  · exact .inl h
  · have := runLoop_last (P := fun t => P t ∧ (t.halted = false ∧ t.fault = none)) (fun u hu ha => ?_) ⟨hs, hr⟩ hl
    · obtain ⟨t, ⟨ht, htr⟩, h1, h2⟩ := this
      exact .inr ⟨t, ht, htr, h1, h2⟩
    · obtain ⟨id, h1, h2⟩ := goes _ _ ha
      have he : stepResult u = (.done id, (stepResult u).2) := by rw [← h1]
      have hd := stepResult_done hu.2.1 hu.2.2 he
      refine ⟨keeps u id _ hu.1 hu.2 he (by rw [h1] at ha; exact ha), ?_, hd.1⟩
      rw [← Bool.not_eq_true, hd.2]
      exact h2

/-- What a step of a state the guard lets through makes of STEP's answer (R106). -/
theorem hostStep_runnable {s : State} (hr : s.halted = false ∧ s.fault = none) :
    (∀ id t, hostStep s = (.ok (.instrId id), t) ↔ stepResult s = (.done id, t)) ∧
      (∀ t, hostStep s = (.awaitingInput, t) ↔ stepResult s = (.paused, t)) ∧
      ∀ f t, hostStep s = (.faulted f, t) ↔ stepResult s = (.faulted f, t) := by
  simp only [hostStep, guardFault_none.2 hr]
  cases stepResult s with
  | mk r u => cases r <;> simp

/-- One more unit of fuel lets a run command take one step before it answers or goes on (R107 to R109). -/
theorem runCommand_succ {answer : StepResult → State → Option Response} {fuel : Nat} {s : State}
    (hr : s.halted = false ∧ s.fault = none) :
    runCommand answer (fuel + 1) s =
      match answer (stepResult s).1 (stepResult s).2 with
      | some r => some (r, (stepResult s).2)
      | none => runLoop answer fuel (stepResult s).2 := by
  cases h : answer (stepResult s).1 (stepResult s).2 <;> simp [runCommand, guardFault_none.2 hr, runLoop, h]

/-- A run command whose step is done and does not stop it goes on as the same command from the state that step left. -/
theorem runCommand_goesOn {answer : StepResult → State → Option Response} {fuel id : Nat} {s t : State}
    (hr : s.halted = false ∧ s.fault = none) (hs : stepResult s = (.done id, t)) (hid : id ≠ 99)
    (ha : answer (.done id) t = none) : runCommand answer (fuel + 1) s = runCommand answer fuel t := by
  have hd := stepResult_done hr.1 hr.2 hs
  have ht : t.halted = false := by
    rw [← Bool.not_eq_true, hd.2]
    exact hid
  rw [runCommand_succ hr, hs]
  simp only [ha, runCommand, guardFault_none.2 ⟨ht, hd.1⟩]

/-- Packaged once: a property that RESET, a poke in range, queued input and every step keep is kept by every command. -/
theorem issue_keeps {P : State → Prop} (reset : ∀ s, P s → P (hostReset s).2)
    (poke : ∀ s a v, P s → 0 ≤ a ∧ a ≤ (s.params.maxAddr.val : Int) →
      P { s with mem := Memory.write s.mem a.toNat v })
    (queue : ∀ s vs, P s → P { s with inq := s.inq ++ vs })
    (steps : ∀ s s', P s → step s = .next s' → P s')
    {fuel : Nat} {c : Command} {s s' : State} {r : Response} (h : issue fuel c s = some (r, s')) (hs : P s) : P s' := by
  have one : ∀ t, P t → (t.halted = false ∧ t.fault = none) → P (stepResult t).2 := by
    intro t ht hr
    obtain ⟨t', hc⟩ : ∃ t', cycle t = .next t' := by
      rcases cycle_cases t with ⟨c, h1, -⟩ | ⟨h1, -⟩ | ⟨i, e, -, -, h1, -⟩
      exacts [⟨_, h1⟩, ⟨_, h1⟩, ⟨_, h1⟩]
    rw [stepResult_snd hc]
    exact steps t t' ht (step_next.2 ⟨hr, hc⟩)
  have run : ∀ answer, GoesOnOnlyWhenDone answer → runCommand answer fuel s = some (r, s') → P s' := by
    intro answer goes h
    rcases runCommand_last goes (P := P) (fun u id u' hu hr he _ => by simpa [he] using one u hu hr) hs h with
      ⟨f, -, -, rfl⟩ | ⟨t, ht, htr, rfl, -⟩
    · exact hs
    · exact one t ht htr
  cases c with
  | reset =>
    simp only [issue, Option.some.injEq] at h
    rw [show s' = (hostReset s).2 by rw [h]]
    exact reset s hs
  | peek a =>
    simp only [issue, hostPeek, Option.some.injEq] at h
    split at h <;> (cases h; exact hs)
  | poke a v =>
    simp only [issue, hostPoke, Option.some.injEq] at h
    split at h
    · rename_i ha
      cases h
      exact poke s a v hs (inRange_iff.1 ha)
    · cases h
      exact hs
  | queueInput v =>
    simp only [issue, hostQueueInput, Option.some.injEq] at h
    cases h
    exact queue s [v] hs
  | queueInputs vs =>
    simp only [issue, hostQueueInputs, Option.some.injEq] at h
    cases h
    exact queue s vs hs
  | readStatus =>
    cases h
    exact hs
  | step =>
    simp only [issue, hostStep, Option.some.injEq] at h
    split at h
    · cases h
      exact hs
    · rename_i hg
      have key : s' = (stepResult s).2 := by
        revert h
        cases stepResult s with
        | mk r1 t => cases r1 <;> (intro h; cases h; rfl)
      rw [key]
      exact one s hs (guardFault_none.1 hg)
  | run => exact run _ runAnswer_goesOn h
  | runToOutput => exact run _ runToOutputAnswer_goesOn h
  | runToInputWait => exact run _ runToInputWaitAnswer_goesOn h
  | getLastOutput =>
    simp only [issue, hostGetLastOutput, Option.some.injEq] at h
    split at h <;> (cases h; exact hs)
  | getOutputs =>
    cases h
    exact hs

/-- The same over a list of commands. -/
theorem issueAll_keeps {P : State → Prop}
    (one : ∀ fuel c s s' r, issue fuel c s = some (r, s') → P s → P s')
    {cs : List (Nat × Command)} {s s' : State} {rs : List Response} (h : issueAll cs s = some (rs, s')) (hs : P s) :
    P s' := by
  induction cs generalizing s rs with
  | nil =>
    simp only [issueAll, Option.some.injEq, Prod.mk.injEq] at h
    exact h.2 ▸ hs
  | cons q cs ih =>
    obtain ⟨fuel, c⟩ := q
    simp only [issueAll] at h
    split at h
    · cases h
    · rename_i r t ht
      split at h
      · cases h
      · rename_i rs' u hu
        cases h
        exact ih hu (one _ _ _ _ _ ht hs)

end Sys2Proof.Machine
end

