-- ==== Sys2Proof/Laws/Load.lean ====
section
/-! SUPPORT. What the two text functions of LOAD_TEXT give, said by what they leave (46_host_control.md R99). -/

namespace Sys2Proof.Machine

theorem isTrimmed_iff {c : Char} : isTrimmed c = true ↔ TextSpace c := by
  have key : ∀ d : Char, c = d ↔ c.toNat = d.toNat := fun d => ⟨congrArg _, Char.toNat_inj.1⟩
  simp only [isTrimmed, Bool.or_eq_true, decide_eq_true_eq, key, or_assoc]
  exact Iff.rfl

/-- Leading white space goes, and what does not begin with white space stays. -/
theorem dropWhile_spaces {pre body : List Char} (hpre : ∀ c ∈ pre, TextSpace c)
    (hbody : ∀ c, body.head? = some c → ¬TextSpace c) : (pre ++ body).dropWhile isTrimmed = body := by
  induction pre with
  | nil =>
    cases body with
    | nil => rfl
    | cons c body => simpa [List.dropWhile_cons, isTrimmed_iff] using fun h => absurd h (hbody c rfl)
  | cons c pre ih =>
    rw [List.cons_append, List.dropWhile_cons, if_pos (isTrimmed_iff.2 (hpre c (by simp)))]
    exact ih fun d hd => hpre d (by simp [hd])

/-- `dropWhile` takes off white space alone, and leaves none in front. -/
theorem dropWhile_leaves (text : List Char) :
    ∃ pre, text = pre ++ text.dropWhile isTrimmed ∧ (∀ c ∈ pre, TextSpace c) ∧
      ∀ c, (text.dropWhile isTrimmed).head? = some c → ¬TextSpace c := by
  refine ⟨text.takeWhile isTrimmed, (List.takeWhile_append_dropWhile).symm, fun c hc => ?_, fun c hc h => ?_⟩
  · exact isTrimmed_iff.1 (List.mem_takeWhile_imp hc)
  · have := List.head?_dropWhile_not isTrimmed text
    rw [hc] at this
    simp [isTrimmed_iff.2 h] at this

/-- Step 1 of R99: `trimText` answers the body and nothing else does. -/
theorem trimsTo_iff {text body : List Char} : TrimsTo text body ↔ trimText text = body := by
  constructor
  · rintro ⟨pre, post, rfl, hsp, hhead, hlast⟩
    have hpre : ∀ c ∈ pre, TextSpace c := fun c hc => hsp c (by simp [hc])
    have hpost : ∀ c ∈ post.reverse, TextSpace c := fun c hc => hsp c (by simp [List.mem_reverse.1 hc])
    have back : (post.reverse ++ body.reverse).dropWhile isTrimmed = body.reverse :=
      dropWhile_spaces hpost fun c hc => hlast c (by simpa using hc)
    unfold trimText
    cases body with
    | nil =>
      have : ((pre ++ [] ++ post) ++ []).dropWhile isTrimmed = [] :=
        dropWhile_spaces (by simpa using hsp) (by simp)
      rw [List.append_nil] at this
      rw [this]
      rfl
    | cons c body =>
      rw [List.append_assoc, dropWhile_spaces hpre (by simpa using hhead), List.reverse_append, back,
        List.reverse_reverse]
  · rintro rfl
    obtain ⟨pre, h1, h2, h3⟩ := dropWhile_leaves text
    obtain ⟨post, h4, h5, h6⟩ := dropWhile_leaves (text.dropWhile isTrimmed).reverse
    have h7 : text.dropWhile isTrimmed = trimText text ++ post.reverse := by
      rw [← List.reverse_reverse (text.dropWhile isTrimmed), h4, List.reverse_append]
      rfl
    refine ⟨pre, post.reverse, by rw [List.append_assoc, ← h7]; exact h1, fun c hc => ?_, fun c hc => ?_, fun c hc => ?_⟩
    · rcases List.mem_append.1 hc with hc | hc
      exacts [h2 c hc, h5 c (List.mem_reverse.1 hc)]
    · refine h3 c ?_
      rw [h7, List.head?_append, hc]
      rfl
    · refine h6 c ?_
      unfold trimText at hc
      rwa [List.getLast?_reverse] at hc

theorem splitTokens_noComma {t : List Char} (h : ',' ∉ t) : splitTokens t = [t] := by
  induction t with
  | nil => rfl
  | cons c t ih =>
    obtain ⟨h1, h2⟩ := not_or.1 (mt List.mem_cons.2 h)
    rw [splitTokens, if_neg (Ne.symm h1), ih h2]

theorem splitTokens_comma {t rest : List Char} (h : ',' ∉ t) :
    splitTokens (t ++ ',' :: rest) = t :: splitTokens rest := by
  induction t with
  | nil => rw [List.nil_append, splitTokens, if_pos rfl]
  | cons c t ih =>
    obtain ⟨h1, h2⟩ := not_or.1 (mt List.mem_cons.2 h)
    rw [List.cons_append, splitTokens, if_neg (Ne.symm h1), ih h2]

/-- Step 2 of R99: `splitTokens` answers the tokens and nothing else does. -/
theorem splitsTo_iff {body : List Char} {tokens : List (List Char)} :
    SplitsTo body tokens ↔ splitTokens body = tokens := by
  constructor
  · rintro ⟨h1, h2, rfl⟩
    induction tokens with
    | nil => exact absurd rfl h1
    | cons t ts ih =>
      have ht := h2 t (by simp)
      cases ts with
      | nil => simpa [List.intercalate] using splitTokens_noComma ht
      | cons u us =>
        have := ih (by simp) fun x hx => h2 x (List.mem_cons_of_mem _ hx)
        rw [show [','].intercalate (t :: u :: us) = t ++ ',' :: [','].intercalate (u :: us) by
          simp [List.intercalate], splitTokens_comma ht, this]
  · rintro rfl
    induction body with
    | nil => exact ⟨by simp [splitTokens], by simp [splitTokens], by simp [splitTokens, List.intercalate]⟩
    | cons c body ih =>
      obtain ⟨h1, h2, h3⟩ := ih
      rw [splitTokens]
      cases hs : splitTokens body with
      | nil => exact absurd hs h1
      | cons t ts =>
        rw [hs] at h2 h3
        split
        · rename_i hc
          refine ⟨by simp, by simpa using h2, ?_⟩
          rw [hc, ← h3]
          cases ts <;> simp [List.intercalate]
        · rename_i hc
          refine ⟨by simp, ?_, ?_⟩
          · simp only [List.mem_cons, forall_eq_or_imp] at h2 ⊢
            exact ⟨by simpa [List.mem_cons, eq_comm, hc] using h2.1, h2.2⟩
          · rw [← h3]
            cases ts <;> simp [List.intercalate]

end Sys2Proof.Machine
end

