-- ==== Sys2Proof/Laws/Memory.lean ====
section
/-! SUPPORT. Memory: reads after writes, and every memory operation keeps the canonical form. -/

namespace Sys2Proof.Machine

@[simp] theorem Memory.wf_nil : Memory.wf [] := ⟨List.Pairwise.nil, by simp⟩

@[simp] theorem Memory.read_nil (a : Nat) : Memory.read [] a = 0 := rfl

theorem Memory.read_cons (b : Nat) (v : Word) (m : Memory) (a : Nat) :
    Memory.read ((b, v) :: m) a = if a = b then v else Memory.read m a := rfl

theorem Memory.wf_cons {b : Nat} {v : Word} {m : Memory} :
    Memory.wf ((b, v) :: m) ↔ (∀ c ∈ m, b < c.1) ∧ v ≠ 0 ∧ Memory.wf m := by
  simp only [Memory.wf, List.pairwise_cons, List.forall_mem_cons]
  tauto

/-- An address no cell lists reads 0. -/
theorem Memory.read_unlisted {m : Memory} {a : Nat} (h : ∀ c ∈ m, c.1 ≠ a) : Memory.read m a = 0 := by
  induction m with
  | nil => rfl
  | cons c m ih =>
    obtain ⟨b, v⟩ := c
    rw [Memory.read_cons, if_neg (fun hab => h (b, v) (by simp) hab.symm)]
    exact ih fun c hc => h c (by simp [hc])

/-- Every cell of a written memory is an old cell or the cell written. -/
theorem Memory.mem_write {m : Memory} {a : Nat} {v : Word} {c : Nat × Word} (h : c ∈ Memory.write m a v) :
    c ∈ m ∨ (c = (a, v) ∧ v ≠ 0) := by
  induction m with
  | nil =>
    by_cases hv : v = 0 <;> simp_all [Memory.write]
  | cons d m ih =>
    obtain ⟨b, u⟩ := d
    simp only [Memory.write] at h
    split_ifs at h with h1 h2 h3 h4
    · exact .inl h
    · rcases List.mem_cons.1 h with rfl | h
      · exact .inr ⟨rfl, h2⟩
      · exact .inl h
    · exact .inl (by simp [h])
    · rcases List.mem_cons.1 h with rfl | h
      · exact .inr ⟨rfl, h4⟩
      · exact .inl (by simp [h])
    · rcases List.mem_cons.1 h with rfl | h
      · exact .inl (by simp)
      · exact (ih h).imp (fun h => by simp [h]) id

/-- A write keeps the canonical form. -/
theorem Memory.write_wf {m : Memory} (h : Memory.wf m) (a : Nat) (v : Word) : Memory.wf (Memory.write m a v) := by
  induction m with
  | nil =>
    simp only [Memory.write]
    split_ifs with hv
    · exact h
    · exact Memory.wf_cons.2 ⟨by simp, hv, h⟩
  | cons c m ih =>
    obtain ⟨b, u⟩ := c
    obtain ⟨hb, hu, hm⟩ := Memory.wf_cons.1 h
    simp only [Memory.write]
    split_ifs with h1 h2 h3 h4
    · exact h
    · refine Memory.wf_cons.2 ⟨?_, h2, h⟩
      simp only [List.forall_mem_cons]
      exact ⟨h1, fun c hc => h1.trans (hb c hc)⟩
    · exact hm
    · exact Memory.wf_cons.2 ⟨h3 ▸ hb, h4, hm⟩
    · refine Memory.wf_cons.2 ⟨fun c hc => ?_, hu, ih hm⟩
      rcases Memory.mem_write hc with hc | ⟨rfl, -⟩
      · exact hb c hc
      · simp only; omega

/-- A write to an address in range keeps every listed address in range. -/
theorem Memory.write_within {m : Memory} {top : Nat} (h : Memory.within m top) {a : Nat} (ha : a ≤ top) (v : Word) :
    Memory.within (Memory.write m a v) top := by
  intro c hc
  rcases Memory.mem_write hc with hc | ⟨rfl, -⟩
  · exact h c hc
  · exact ha

/-- A read after a write: the value written at its address, the old value everywhere else (20_memory.md R34). -/
theorem Memory.read_write {m : Memory} (h : Memory.wf m) (a b : Nat) (v : Word) :
    Memory.read (Memory.write m a v) b = if b = a then v else Memory.read m b := by
  induction m with
  | nil =>
    simp only [Memory.write]
    split_ifs with hv hb hb <;> simp_all [Memory.read_cons]
  | cons c m ih =>
    obtain ⟨d, u⟩ := c
    obtain ⟨hd, -, hm⟩ := Memory.wf_cons.1 h
    have unlisted : ∀ x, x ≤ d → Memory.read m x = 0 := fun x hx =>
      Memory.read_unlisted fun c hc hcx => by have := hd c hc; omega
    simp only [Memory.write]
    have hread := ih hm
    rcases Nat.lt_trichotomy a d with h1 | rfl | h1
    · rw [if_pos h1]
      by_cases hv : v = 0
      · rw [if_pos hv]
        by_cases hb : b = a
        · subst hb
          rw [if_pos rfl, hv, Memory.read_cons, if_neg (by omega), unlisted _ (by omega)]
        · rw [if_neg hb]
      · rw [if_neg hv, Memory.read_cons]
    · rw [if_neg (by omega), if_pos rfl]
      by_cases hv : v = 0
      · rw [if_pos hv, Memory.read_cons]
        by_cases hb : b = a
        · subst hb
          rw [if_pos rfl, hv, unlisted _ (by omega)]
        · rw [if_neg hb, if_neg hb]
      · rw [if_neg hv, Memory.read_cons, Memory.read_cons]
        split_ifs <;> rfl
    · rw [if_neg (by omega), if_neg (by omega), Memory.read_cons, Memory.read_cons, hread]
      by_cases hb : b = d
      · rw [if_pos hb, if_neg (by omega), if_pos hb]
      · rw [if_neg hb, if_neg hb]

theorem Memory.ofWordsFrom_bounds {a : Nat} {ws : List Word} {c : Nat × Word} (h : c ∈ Memory.ofWordsFrom a ws) :
    a ≤ c.1 ∧ c.1 < a + ws.length := by
  induction ws generalizing a with
  | nil => simp [Memory.ofWordsFrom] at h
  | cons w ws ih =>
    simp only [Memory.ofWordsFrom] at h
    simp only [List.length_cons]
    split_ifs at h
    · have := ih h; omega
    · rcases List.mem_cons.1 h with rfl | h
      · simp
      · have := ih h; omega

theorem Memory.ofWordsFrom_wf (a : Nat) (ws : List Word) : Memory.wf (Memory.ofWordsFrom a ws) := by
  induction ws generalizing a with
  | nil => exact Memory.wf_nil
  | cons w ws ih =>
    simp only [Memory.ofWordsFrom]
    split_ifs with h
    · exact ih _
    · exact Memory.wf_cons.2 ⟨fun c hc => by have := Memory.ofWordsFrom_bounds hc; omega, h, ih _⟩

/-- A loaded memory is in the canonical form. -/
theorem Memory.ofWords_wf (ws : List Word) : Memory.wf (Memory.ofWords ws) := Memory.ofWordsFrom_wf 0 ws

/-- A loaded memory lists no address above the last word's. -/
theorem Memory.ofWords_within {ws : List Word} {top : Nat} (h : ws.length ≤ top + 1) :
    Memory.within (Memory.ofWords ws) top := fun c hc => by
  have := Memory.ofWordsFrom_bounds hc
  omega

theorem Memory.read_ofWordsFrom (a : Nat) (ws : List Word) (b : Nat) :
    Memory.read (Memory.ofWordsFrom a ws) b = if b < a then 0 else ws.getD (b - a) 0 := by
  induction ws generalizing a with
  | nil => simp [Memory.ofWordsFrom]
  | cons w ws ih =>
    have step : Memory.read (Memory.ofWordsFrom a (w :: ws)) b =
        if b = a then w else Memory.read (Memory.ofWordsFrom (a + 1) ws) b := by
      simp only [Memory.ofWordsFrom]
      by_cases h : w = 0
      · rw [if_pos h]
        by_cases hb : b = a
        · rw [if_pos hb, ih, if_pos (by omega), h]
        · rw [if_neg hb]
      · rw [if_neg h, Memory.read_cons]
    rw [step, ih]
    rcases Nat.lt_trichotomy b a with hb | rfl | hb
    · rw [if_neg (by omega), if_pos (by omega), if_pos hb]
    · simp
    · obtain ⟨k, rfl⟩ : ∃ k, b = a + 1 + k := ⟨b - a - 1, by omega⟩
      have e1 : a + 1 + k - a = k + 1 := by omega
      have e2 : a + 1 + k - (a + 1) = k := by omega
      rw [if_neg (by omega), if_neg (by omega), if_neg (by omega), e1, e2, List.getD_cons_succ]

/-- Word k of a loaded program is at address k, and every other address reads 0 (10_state.md R30, 20_memory.md R42). -/
theorem Memory.read_ofWords (ws : List Word) (a : Nat) : Memory.read (Memory.ofWords ws) a = ws.getD a 0 := by
  simp [Memory.ofWords, Memory.read_ofWordsFrom]

/-- Storing words keeps the canonical form. -/
theorem storeWords_wf (p : Params) {m : Memory} (h : Memory.wf m) (a : Int) (ws : List Word) :
    Memory.wf (storeWords p m a ws) := by
  induction ws generalizing m a with
  | nil => exact h
  | cons w ws ih =>
    simp only [storeWords]
    split_ifs
    · exact ih (Memory.write_wf h _ _) _
    · exact ih h _

end Sys2Proof.Machine
end

