-- ==== Sys2Proof/Laws/PerInstr.lean ====
section
/-! SUPPORT. The decimal fields of every instruction's opcode word (30_encoding.md R52, R54, R56, R64), per constructor. -/

namespace Sys2Proof.Laws

/-- What the encoder answers (R64): the words of a legal instruction, and nothing for any other. -/
theorem encode_some {i : Instr} {ws : List Word} : encode i = some ws ↔ i.wellFormed = true ∧ ws = instrWords i := by
  unfold encode
  cases h : i.wellFormed <;> simp [eq_comm]

theorem encode_none {i : Instr} : encode i = none ↔ i.wellFormed = false := by
  unfold encode
  cases h : i.wellFormed <;> simp

theorem digit_le (m : Mode) : m.digit ≤ 9 := by
  cases m <;> simp only [Mode.digit] <;> omega

theorem id_lt (op : Opcode) : op.id < 100 := by cases op <;> decide

/-- The opcode value of R64 has the instruction's id in its low two digits, the mode digits above it in order, no extra
digit, and as many mode digits as the instruction has parameters. -/
def OpcodeFields.Statement (i : Instr) : Prop :=
  opcodeValue i % 100 = i.opcode.id ∧ extraDigits i.opcode (opcodeValue i) = 0 ∧ opcodeValue i < 100000 ∧
    i.operands.length = i.opcode.nparams ∧
    ∀ k (h : k < i.operands.length), opcodeValue i / 10 ^ (k + 2) % 10 = (i.operands[k]).mode.digit

theorem fields_three (i : Instr) (a b t : Operand) (hn : i.opcode.nparams = 3) (ho : i.operands = [a, b, t]) :
    OpcodeFields.Statement i := by
  have hid := id_lt i.opcode
  have h1 := digit_le a.mode
  have h2 := digit_le b.mode
  have h3 := digit_le t.mode
  have hv : opcodeValue i = i.opcode.id + 100 * a.mode.digit + 1000 * b.mode.digit + 10000 * t.mode.digit := by
    simp only [opcodeValue, ho, modeDigits]
    omega
  refine ⟨by omega, by simp only [extraDigits, hn]; omega, by omega, by simp [ho, hn], fun k h => ?_⟩
  have hk : k < 3 := by simpa [ho] using h
  obtain rfl | rfl | rfl : k = 0 ∨ k = 1 ∨ k = 2 := by omega
  all_goals
    simp only [ho, List.getElem_cons_zero, List.getElem_cons_succ, hv]
    omega

theorem fields_two (i : Instr) (a b : Operand) (hn : i.opcode.nparams = 2) (ho : i.operands = [a, b]) :
    OpcodeFields.Statement i := by
  have hid := id_lt i.opcode
  have h1 := digit_le a.mode
  have h2 := digit_le b.mode
  have hv : opcodeValue i = i.opcode.id + 100 * a.mode.digit + 1000 * b.mode.digit := by
    simp only [opcodeValue, ho, modeDigits]
    omega
  refine ⟨by omega, by simp only [extraDigits, hn]; omega, by omega, by simp [ho, hn], fun k h => ?_⟩
  have hk : k < 2 := by simpa [ho] using h
  obtain rfl | rfl : k = 0 ∨ k = 1 := by omega
  all_goals
    simp only [ho, List.getElem_cons_zero, List.getElem_cons_succ, hv]
    omega

theorem fields_one (i : Instr) (a : Operand) (hn : i.opcode.nparams = 1) (ho : i.operands = [a]) :
    OpcodeFields.Statement i := by
  have hid := id_lt i.opcode
  have h1 := digit_le a.mode
  have hv : opcodeValue i = i.opcode.id + 100 * a.mode.digit := by
    simp only [opcodeValue, ho, modeDigits]
    omega
  refine ⟨by omega, by simp only [extraDigits, hn]; omega, by omega, by simp [ho, hn], fun k h => ?_⟩
  have hk : k < 1 := by simpa [ho] using h
  obtain rfl : k = 0 := by omega
  simp only [ho, List.getElem_cons_zero, hv]
  omega

theorem OpcodeFields.add (a b t : Operand) : OpcodeFields.Statement (.add a b t) :=
  fields_three _ a b t rfl rfl
theorem OpcodeFields.mul (a b t : Operand) : OpcodeFields.Statement (.mul a b t) :=
  fields_three _ a b t rfl rfl
theorem OpcodeFields.input (t : Operand) : OpcodeFields.Statement (.input t) :=
  fields_one _ t rfl rfl
theorem OpcodeFields.output (a : Operand) : OpcodeFields.Statement (.output a) :=
  fields_one _ a rfl rfl
theorem OpcodeFields.jumpIfTrue (a b : Operand) : OpcodeFields.Statement (.jumpIfTrue a b) :=
  fields_two _ a b rfl rfl
theorem OpcodeFields.jumpIfFalse (a b : Operand) : OpcodeFields.Statement (.jumpIfFalse a b) :=
  fields_two _ a b rfl rfl
theorem OpcodeFields.lessThan (a b t : Operand) : OpcodeFields.Statement (.lessThan a b t) :=
  fields_three _ a b t rfl rfl
theorem OpcodeFields.equals (a b t : Operand) : OpcodeFields.Statement (.equals a b t) :=
  fields_three _ a b t rfl rfl
theorem OpcodeFields.adjustBase (a : Operand) : OpcodeFields.Statement (.adjustBase a) :=
  fields_one _ a rfl rfl
theorem OpcodeFields.halt : OpcodeFields.Statement .halt := by
  refine ⟨rfl, rfl, by decide, rfl, fun k h => ?_⟩
  simp [Instr.operands] at h

end Sys2Proof.Laws
end

