-- ==== Sys2Proof/Tests/Slice0.lean ====
section
/-! SUPPORT. Tests from the spec's own vectors (95_test_vectors.md) and words written out from 30_encoding.md, and for every
statement with hypotheses a concrete witness that meets them. -/

namespace Sys2Proof.Tests

open Sys2Proof.Machine

/-- A loaded instance with the default parameters (the conventions of 95_test_vectors.md). -/
def prog (ws : List Word) : State := loadedState Params.default ws

/-- The same with values queued. -/
def progIn (ws q : List Word) : State := { prog ws with inq := q }

/-- The same under `OVERFLOW_POLICY = wrap` and `EXTRA_DIGIT_POLICY = ignore`. -/
def lax (ws : List Word) : State :=
  loadedState { maxAddr := Params.default.maxAddr, overflow := .wrap, extraDigit := .ignore } ws

/-- M of the test vectors, 2^63 - 1. -/
def big : Word := 9223372036854775807

/-- The least `Int64`, -2^63. -/
def low : Word := 9223372036854775808

def imm (k : Word) : Operand := ⟨.immediate, k⟩
def pos (k : Word) : Operand := ⟨.position, k⟩
def rel (k : Word) : Operand := ⟨.relative, k⟩
def bad (d : Fin 7) : Operand := ⟨.reserved d, 0⟩

/-- Does the outcome give a next state with the property? -/
def after (o : Host.Outcome State Fault Refusal) (f : State → Bool) : Bool :=
  match o with
  | .next s => f s
  | .fault _ => false
  | .refused _ => false

/-- The next state records this fault, at this `pc`. -/
def faults (o : Host.Outcome State Fault Refusal) (c : Cause) (pc : Word) : Bool :=
  after o fun s => s.fault == some { cause := c, pc := pc }

/-! ### WellFormed: an ill-formed term for each check is refused, and a legal one is not -/

theorem test_wellFormed_read : (Instr.add (bad 0) (imm 1) (pos 2)).wellFormed = false := by decide
theorem test_wellFormed_second_read : (Instr.jumpIfTrue (imm 1) (bad 6)).wellFormed = false := by decide
theorem test_wellFormed_immediate_target : (Instr.add (imm 1) (imm 1) (imm 5)).wellFormed = false := by decide
theorem test_wellFormed_reserved_target : (Instr.input (bad 3)).wellFormed = false := by decide
theorem test_wellFormed_legal : (Instr.lessThan (rel 2) (imm 10) (rel 3)).wellFormed = true := by decide

/-! ### Decoding: words written out from the digit pattern `CBA` and the id (R57, R64), one per constructor -/

theorem test_decode_add : decode .fault [22201, 0, 1, 2] = .ok (.add (rel 0) (rel 1) (rel 2)) := by decide
theorem test_decode_mul : decode .fault [1002, 4, 3, 4] = .ok (.mul (pos 4) (imm 3) (pos 4)) := by decide
theorem test_decode_in : decode .fault [203, -2] = .ok (.input (rel (-2))) := by decide
theorem test_decode_out : decode .fault [104, -17] = .ok (.output (imm (-17))) := by decide
theorem test_decode_jumpIfTrue : decode .fault [2105, 1, 0] = .ok (.jumpIfTrue (imm 1) (rel 0)) := by decide
theorem test_decode_jumpIfFalse : decode .fault [1106, 0, -1] = .ok (.jumpIfFalse (imm 0) (imm (-1))) := by decide
theorem test_decode_lessThan : decode .fault [21207, 2, 10, 3] = .ok (.lessThan (rel 2) (imm 10) (rel 3)) := by decide
theorem test_decode_equals : decode .fault [1008, 0, 1008, 0] = .ok (.equals (pos 0) (imm 1008) (pos 0)) := by decide
theorem test_decode_adjustBase : decode .fault [209, 3] = .ok (.adjustBase (rel 3)) := by decide
theorem test_decode_halt : decode .fault [99] = .ok .halt := by decide
/-- V-DEC: 11101 and 301 decode, with the illegal mode left to the resolver (R78). -/
theorem test_decode_illegal_modes :
    decode .fault [11101, 1, 1, 5] = .ok (.add (imm 1) (imm 1) (imm 5)) ∧
      decode .fault [301, 0, 0, 0] = .ok (.add (bad 0) (pos 0) (pos 0)) := by decide
/-- V-DEC: the extra digits. -/
theorem test_decode_extra_digits :
    decode .fault [100001, 0, 0, 0] = .error (.extraDigits .add 1) ∧
      decode .ignore [100001, 0, 0, 0] = .ok (.add (pos 0) (pos 0) (pos 0)) ∧
      decode .fault [1099] = .error (.extraDigits .halt 10) := by decide
/-- V-DEC: the unknown words. -/
theorem test_decode_unknown :
    decode .ignore [0] = .error (.unknownOpcode 0) ∧ decode .ignore [42] = .error (.unknownOpcode 42) ∧
      decode .ignore [100] = .error (.unknownOpcode 100) ∧ decode .ignore [-99] = .error (.unknownOpcode (-99)) := by
  decide
/-- R64's own example: `MUL [4], #3, [4]` encodes to 1002, 4, 3, 4. -/
theorem test_encode_mul : encode (.mul (pos 4) (imm 3) (pos 4)) = some [1002, 4, 3, 4] := by decide

/-- R64: the encoder refuses `#5` as the target of ADD. -/
theorem test_encode_refuses : encode (.add (imm 1) (imm 1) (imm 5)) = none := by decide

/-! ### The host's view of a table row: the row's `match` as its word, operand words zero -/

theorem test_table_halt : decodeTableWord 8 99 = some .halt := by decide
theorem test_table_add : decodeTableWord 64 1 = some (.add (pos 0) (pos 0) (pos 0)) := by decide
theorem test_table_second_word : decodeTableWord 128 (104 + 5 * 2 ^ 64) = some (.output (imm 5)) := by decide
theorem test_fetchWord_runs :
    after (step (State.reset.withFetchWord 8 4)) (fun s => s.outlog == [(0, 4)]) = true := by decide

/-! ### ADD and MUL (V-ARITH, W1, W3) -/

/-- A16, W1: both reads come before the write. -/
theorem test_add_reads_before_write : after (step (prog [1, 0, 0, 0])) (fun s => s.mem.read 0 == 2 && s.pc == 4) = true := by
  decide
/-- A3 and A3w. -/
theorem test_add_overflow :
    faults (step (prog [1101, big, 1, 0])) (.arithmeticOverflow .add big 1) 0 = true ∧
      after (step (lax [1101, big, 1, 0])) (fun s => s.mem.read 0 == low) = true := by decide
/-- W3. -/
theorem test_mul_immediate : after (step (prog [1002, 4, 3, 4, 33])) (fun s => s.mem.read 4 == 99 && s.pc == 4) = true := by
  decide
/-- A8 and A6w. -/
theorem test_mul_overflow :
    faults (step (prog [2, 5, 6, 0, 99, 3037000500, 3037000500])) (.arithmeticOverflow .mul 3037000500 3037000500) 0 = true ∧
      after (step (lax [1102, 4294967296, 2147483648, 0])) (fun s => s.mem.read 0 == low) = true := by decide

/-! ### IN and OUT (V-IO) -/

/-- I8 and I1. -/
theorem test_in_takes_the_head :
    after (step (progIn [3, 0] [1, 2])) (fun s => s.mem.read 0 == 1 && s.inq == [2] && s.pc == 2) = true ∧
      after (step (prog [3, 3, 99])) (fun s => s == prog [3, 3, 99]) = true := by decide
/-- I3, I3b, I11: the pause comes before the mode check and the extra-digit check; a fault consumes nothing. -/
theorem test_in_pause_before_checks :
    after (step (prog [103, 0])) (fun s => s == prog [103, 0]) = true ∧
      after (step (prog [1103, 0])) (fun s => s == prog [1103, 0]) = true ∧
      after (step (progIn [103, 0] [5])) (fun s =>
        s.fault == some ⟨.invalidAddressingMode 1 1, 0⟩ && s.inq == [5]) = true := by decide
/-- I5. -/
theorem test_out_position : after (step (prog [4, 0])) (fun s => s.outlog == [(0, 4)] && s.pc == 2) = true := by decide
/-- J11: OUT at M - 1 cannot go on, and emits nothing. -/
theorem test_out_at_the_top :
    after (step { prog [] with pc := big - 1, mem := [(big.toNat - 1, 104), (big.toNat, 7)] })
      (fun s => s.fault == some ⟨.addressOutOfRange (2 ^ 63), big - 1⟩ && s.outlog == []) = true := by decide

/-! ### The jumps (V-JMP) -/

/-- J1, J2. -/
theorem test_jumpIfTrue :
    after (step (prog [1105, 1, 7])) (fun s => s.pc == 7) = true ∧
      after (step (prog [1105, 0, 7])) (fun s => s.pc == 3) = true := by decide
/-- J6: a negative value is true. -/
theorem test_jumpIfTrue_negative : after (step (prog [1105, -1, 0])) (fun s => s.pc == 0) = true := by decide
/-- J3, its first step: the target is not checked. -/
theorem test_jumpIfFalse_unchecked : after (step (prog [1106, 0, -1])) (fun s => s.pc == -1 && s.fault == none) = true := by
  decide
/-- J3, its second step. -/
theorem test_fetch_negative_pc : faults (step { prog [] with pc := -1 }) (.addressOutOfRange (-1)) (-1) = true := by decide

/-! ### The comparisons (V-CMP) -/

/-- C6: signed. -/
theorem test_lessThan_signed : after (step (prog [1107, low, big, 5])) (fun s => s.mem.read 5 == 1) = true := by decide
/-- C3. -/
theorem test_lessThan_strict : after (step (prog [1107, 4, 4, 0])) (fun s => s.mem.read 0 == 0) = true := by decide
/-- C4: over its own opcode word. -/
theorem test_equals_over_itself : after (step (prog [1108, 8, 8, 0])) (fun s => s.mem.read 0 == 1 && s.pc == 4) = true := by
  decide
/-- C8. -/
theorem test_equals_immediate_target : faults (step (prog [11108, 1, 1, 1])) (.invalidAddressingMode 3 1) 0 = true := by decide

/-! ### HALT and ADJUST-BASE (V-CTL) -/

/-- H1 and H2i. -/
theorem test_halt :
    after (step (prog [99])) (fun s => s.halted && s.pc == 1) = true ∧
      after (step (lax [199])) (fun s => s.halted) = true ∧
      faults (step (prog [199])) (.invalidAddressingMode 0 1) 0 = true := by decide
/-- J12, its second step: HALT at the last address cannot complete. -/
theorem test_halt_at_the_top :
    after (step { prog [] with pc := big, mem := [(big.toNat, 99)] })
      (fun s => s.fault == some ⟨.addressOutOfRange (2 ^ 63), big⟩ && !s.halted) = true := by decide
/-- H5: the operand is read with the old base. -/
theorem test_adjustBase_relative : after (step (prog [209, 3, 99, -7])) (fun s => s.rb == -7 && s.pc == 2) = true := by decide
/-- H6 and H6w, their second steps. -/
theorem test_adjustBase_overflow :
    faults (step { prog [109, 1] with rb := big }) (.arithmeticOverflow .adjustBase big 1) 0 = true ∧
      after (step { lax [109, 1] with rb := big }) (fun s => s.rb == low) = true := by decide

/-! ### The order of faults (A18, A19) and the effective address (A14) -/

theorem test_mode_beats_overflow : faults (step (prog [11101, big, 1, 0])) (.invalidAddressingMode 3 1) 0 = true := by decide
theorem test_target_beats_overflow :
    faults (step (prog [1102, 4611686018427387904, 4, -1])) (.addressOutOfRange (-1)) 0 = true := by decide
theorem test_negative_target : faults (step (prog [1, 0, 0, -1])) (.addressOutOfRange (-1)) 0 = true := by decide

/-! ### The host port (V-HOST, V-TEXT) -/

/-- S1. -/
theorem test_host_halt :
    hostGetLastOutput (prog [99]) = (.err .noOutputYet, prog [99]) ∧
      (hostRunToOutput 1 (prog [99])).map (·.1) = some (.err .starvedForOutput) ∧ hostRun 0 (prog [99]) = none ∧
      (hostStep { prog [99] with halted := true }).1 = .err .alreadyHalted := by decide
/-- S2, S5: the two ways a pause is told. -/
theorem test_host_pause :
    hostRunToInputWait 1 (prog [3, 0, 99]) = some (.ok (.bool true), prog [3, 0, 99]) ∧
      hostRunToOutput 1 (prog [3, 0, 4, 0, 99]) = some (.awaitingInput, prog [3, 0, 4, 0, 99]) := by decide
/-- S3: a poke does not clear the fault. -/
theorem test_host_sticky :
    (hostStep (hostPoke 0 99 { prog [42, 99] with fault := some ⟨.unknownOpcode 42, 0⟩ }).2).1 =
      .faulted ⟨.unknownOpcode 42, 0⟩ := by decide
/-- S4. -/
theorem test_host_addresses :
    (hostPeek (-1) (prog [1])).1 = .err .hostAddressOutOfRange ∧
      (hostPoke (-1) 5 (prog [1])).1 = .err .hostAddressOutOfRange ∧
      (hostPeek (2 ^ 63 - 1) (prog [1])).1 = .ok (.word 0) := by decide
/-- W5, step 5, its OUT: STEP answers the id, RUN_TO_OUTPUT the pair. -/
theorem test_host_step_id :
    (hostStep (prog [4, 0])).1 = .ok (.instrId 4) ∧
      (hostRunToOutput 1 (prog [4, 0])).map (·.1) = some (.ok (.pair 0 4)) := by decide
/-- V-TEXT, the texts that load. -/
theorem test_text_loads :
    parseProgram [' ', ' ', '1', ',', '0', ',', '9', '9', '\n'] = some [1, 0, 99] ∧
      parseProgram ['-', '5', ',', '3'] = some [-5, 3] ∧
      parseProgram ['0', '0', '7', ',', '-', '0'] = some [7, 0] := by decide
/-- V-TEXT, the texts that do not. -/
theorem test_text_malformed :
    parseProgram ['1', ',', ' ', '2'] = none ∧ parseProgram ['1', ',', ',', '2'] = none ∧
      parseProgram ['1', ',', '2', ','] = none ∧ parseProgram [] = none ∧ parseProgram ['+', '1'] = none ∧
      parseProgram ['1', '.', '0'] = none ∧ parseProgram ['-'] = none ∧ parseProgram ['1', '\n', '2'] = none := by decide
/-- V-TEXT: the ends of the range. -/
theorem test_text_range :
    readToken ['9', '2', '2', '3', '3', '7', '2', '0', '3', '6', '8', '5', '4', '7', '7', '5', '8', '0', '8'] = none ∧
      readToken ['-', '9', '2', '2', '3', '3', '7', '2', '0', '3', '6', '8', '5', '4', '7', '7', '5', '8', '0', '8'] =
        some low := by decide

/-! ### Memory -/

theorem test_memory_canonical :
    Memory.write [(3, 7)] 3 0 = [] ∧ Memory.write [(3, 7)] 1 2 = [(1, 2), (3, 7)] ∧ Memory.write [(3, 7)] 9 0 = [(3, 7)] := by
  decide

theorem reset_memory_wf : Memory.wf State.reset.mem := by decide

/-! ### Witnesses: for every statement with hypotheses, values that meet all of them together, clause by clause -/

/-- A state at the top of the address space, where `PC + 1 + n` does not fit for the largest `n` still readable. -/
def top (back : Word) : State := { prog [] with pc := big - back }

/-- The same under the policy `wrap`, with `RB` 1. -/
def laxTop (back : Word) : State := { lax [] with pc := big - back, rb := 1 }

theorem witness_DecodeOfEncodeIsIdentity : encode (.mul (pos 4) (imm 3) (pos 4)) = some [1002, 4, 3, 4] := by decide

theorem witness_EncoderGivesTheWordsOrRefuses :
    Instr.wellFormed (.mul (pos 4) (imm 3) (pos 4)) = true ∧ Instr.wellFormed (.output (bad 0)) = false ∧
      (imm 5).mode = .immediate := by decide

theorem witness_LegalInstructionHasOneOpcodeWord :
    (Instr.wellFormed .halt = true ∧ decode .fault [99] = .ok .halt) ∧
      (1 ≤ 92233720368547757 ∧ opcodeValue .halt + 92233720368547757 * 10 ^ (Opcode.nparams .halt + 2) ≤ 2 ^ 63 - 1) := by
  decide

theorem witness_OpcodeWordAloneGivesTheLength :
    (([1, 5, 6, 7] : List Word).getD 0 0 = ([1, 8, 9, 10] : List Word).getD 0 0 ∧
      decode .fault [1, 5, 6, 7] = .ok (.add (pos 5) (pos 6) (pos 7)) ∧
      decode .ignore [1, 8, 9, 10] = .ok (.add (pos 8) (pos 9) (pos 10))) ∧
      (decode .fault [104, 5] = .ok (.output (imm 5)) ∧
        ∀ k, k < 2 → ([104, 5, 8] : List Word).getD k 0 = ([104, 5] : List Word).getD k 0) := by decide

theorem witness_EqualReadsAreEqualMemories :
    Memory.wf [(3, 7)] ∧ Memory.wf (Memory.write (Memory.write [(3, 7)] 5 1) 5 0) ∧
      ∀ a, Memory.read [(3, 7)] a = Memory.read (Memory.write (Memory.write [(3, 7)] 5 1) 5 0) a :=
  ⟨by decide, by decide, fun _ => rfl⟩

theorem witness_PokeWritesOneWordOrNothing :
    Memory.wf (prog [1]).mem ∧ Addressable (prog [1]) (2 ^ 63 - 1) ∧ ¬Addressable (prog [1]) (-1) := by decide

theorem witness_PeekAnswersTheWord :
    Addressable (prog [1]) 0 ∧ (Addressable (prog [1]) (2 ^ 63 - 1) ∧ ∀ c ∈ (prog [1]).mem, (c.1 : Int) ≠ 2 ^ 63 - 1) ∧
      ¬Addressable (prog [1]) (2 ^ 63) := by decide

theorem witness_LoadWordsLeavesTheResetState :
    ([] : List Word).length ≤ Params.default.maxAddr.val + 1 ∧
      ¬([1, 2] : List Word).length ≤ (Params.mk ⟨0, by decide⟩ .fault .fault).maxAddr.val + 1 := by decide

theorem witness_OnlyLoadWritesOrigin :
    step (prog [99]) = .next { prog [99] with halted := true, pc := 1 } ∧
      issue 0 (.poke 0 5) (prog [99]) = some (.ok .unit, { prog [99] with mem := [(0, 5)] }) ∧
      hostLoadWords Params.default [99] = (.ok .unit, some (prog [99])) := ⟨rfl, rfl, rfl⟩

theorem witness_ResetMakesRunsRepeatable :
    hostLoadWords Params.default [99] = (.ok .unit, some (prog [99])) ∧
      issueAll [(0, .queueInput 7), (1, .run)] (prog [99]) =
        some ([.ok .unit, .ok (.word 99)], { prog [99] with halted := true, pc := 1, inq := [7] }) := ⟨rfl, rfl⟩

/-- Every clause of R73 and R74: the parameter word's address in range and not, and each mode. -/
theorem witness_ReadOperandResolvesByMode :
    ReadsAs (prog [1, 0, 0, 0]) 1 (pos 0) 1 ∧ ¬Addressable (top 0) ((top 0).pc.toInt + (1 : Nat)) ∧
      (Addressable (top 1) ((top 1).pc.toInt + (1 : Nat)) ∧ ¬Addressable (top 1) (pos (-1)).word.toInt ∧
        ¬Addressable (top 1) ((rel (-1)).word.toInt + (top 1).rb.toInt) ∧ (bad 6).mode = .reserved 6) := by
  refine ⟨⟨by decide, ?_⟩, by decide⟩
  exact ⟨by decide, by decide⟩

theorem witness_WriteTargetResolvesByMode :
    TargetsAt (prog [1, 0, 0, 0]) 3 (pos 0) 0 ∧ ¬Addressable (top 0) ((top 0).pc.toInt + (1 : Nat)) ∧
      (Addressable (top 1) ((top 1).pc.toInt + (1 : Nat)) ∧ ¬Addressable (top 1) (pos (-1)).word.toInt ∧
        ¬Addressable (top 1) ((rel (-1)).word.toInt + (top 1).rb.toInt) ∧ (imm 5).mode = .immediate ∧
        (bad 6).mode = .reserved 6) := by
  refine ⟨⟨by decide, ?_⟩, by decide⟩
  exact ⟨by decide, by decide⟩

theorem witness_RelativeIsPositionAtTheSum :
    Addressable { prog [1] with rb := 3 } ((-3 : Word).toInt + (3 : Word).toInt) ∧
      (¬Addressable { prog [1] with rb := 3 } ((-4 : Word).toInt + (3 : Word).toInt) ∧
        Fits ((-4 : Word).toInt + (3 : Word).toInt)) ∧
      (¬Addressable { prog [1] with rb := big } (big.toInt + big.toInt) ∧ ¬Fits (big.toInt + big.toInt)) := by decide

/-- A state that reads 5 in every mode (W6), with `RB` 2. -/
def five : State := { prog [0, 0, 5, 7] with rb := 2 }

theorem five_reads : ReadsAs five 1 (pos 2) 5 ∧ ReadsAs five 1 (rel 0) 5 ∧ ReadsAs five 2 (imm 7) 7 ∧
    ReadsAs five 2 (rel 1) 7 := by
  refine ⟨⟨by decide, ?_⟩, ⟨by decide, ?_⟩, ⟨by decide, ?_⟩, ⟨by decide, ?_⟩⟩
  · exact ⟨by decide, by decide⟩
  · exact ⟨by decide, by decide⟩
  · exact rfl
  · exact ⟨by decide, by decide⟩

theorem witness_ReadOperandsAreModeIndependent : ReadsAs five 1 (pos 2) 5 ∧ ReadsAs five 1 (rel 0) 5 ∧
    ReadsAs five 2 (imm 7) 7 ∧ ReadsAs five 2 (rel 1) 7 := five_reads

theorem reads_imm (s : State) (i : Nat) (k : Word) (h : Addressable s (s.pc.toInt + i)) : ReadsAs s i (imm k) k := ⟨h, rfl⟩

theorem targets_zero (s : State) (i : Nat) (h : Addressable s (s.pc.toInt + i)) : TargetsAt s i (pos 0) 0 :=
  ⟨h, by
    refine ⟨⟨by decide, ?_⟩, rfl⟩
    have : (0 : Int) ≤ (s.params.maxAddr.val : Int) := Int.natCast_nonneg _
    exact this⟩

/-- The three clauses of R82, for ADD and for MUL, at the ends of the range. -/
theorem witness_AddAndMulObeyTheIntegerLaw :
    (ReadsAs (prog []) 1 (imm big) big ∧ ReadsAs (prog []) 2 (imm 0) 0 ∧ TargetsAt (prog []) 3 (pos 0) 0 ∧
      Fits (big.toInt + (0 : Word).toInt) ∧ Fits (big.toInt * (0 : Word).toInt) ∧ NextFits (prog []) 3) ∧
    (ReadsAs (prog []) 1 (imm low) low ∧ ReadsAs (prog []) 2 (imm (-1)) (-1) ∧
      ¬Fits (low.toInt + (-1 : Word).toInt) ∧ ¬Fits (low.toInt * (-1 : Word).toInt) ∧
      (prog []).params.overflow = .fault) ∧
    (ReadsAs (lax []) 1 (imm low) low ∧ ReadsAs (lax []) 2 (imm (-1)) (-1) ∧ TargetsAt (lax []) 3 (pos 0) 0 ∧
      (lax []).params.overflow = .wrap ∧ NextFits (lax []) 3) := by
  refine ⟨⟨reads_imm _ _ _ (by decide), reads_imm _ _ _ (by decide), targets_zero _ _ (by decide), by decide⟩,
    ⟨reads_imm _ _ _ (by decide), reads_imm _ _ _ (by decide), by decide⟩,
    reads_imm _ _ _ (by decide), reads_imm _ _ _ (by decide), targets_zero _ _ (by decide), by decide⟩

/-- The four clauses of the comparisons: less, not less, equal, unequal. -/
theorem witness_ComparisonsWriteOneOrZero :
    ReadsAs (prog []) 1 (imm low) low ∧ ReadsAs (prog []) 2 (imm big) big ∧ ReadsAs (prog []) 1 (imm big) big ∧
      TargetsAt (prog []) 3 (pos 0) 0 ∧ NextFits (prog []) 3 ∧ low.toInt < big.toInt ∧ ¬big.toInt < big.toInt ∧
      big.toInt = big.toInt ∧ low.toInt ≠ big.toInt := by
  refine ⟨reads_imm _ _ _ (by decide), reads_imm _ _ _ (by decide), reads_imm _ _ _ (by decide),
    targets_zero _ _ (by decide), by decide⟩

theorem witness_InWritesTheHeadOfTheQueue :
    (progIn [3, 0] [1, 2]).inq = 1 :: [2] ∧ TargetsAt (progIn [3, 0] [1, 2]) 1 (pos 0) 0 ∧
      NextFits (progIn [3, 0] [1, 2]) 1 := ⟨rfl, targets_zero _ _ (by decide), by decide⟩

theorem witness_OutAppendsItsAddressAndValue : ReadsAs (prog []) 1 (imm 7) 7 ∧ NextFits (prog []) 1 :=
  ⟨reads_imm _ _ _ (by decide), by decide⟩

/-- A jump is taken even where the sequential address would not fit. -/
theorem witness_ConditionalJumpsTestForZero :
    (ReadsAs (top 2) 1 (imm (-1)) (-1) ∧ ReadsAs (top 2) 2 (imm 0) 0 ∧ (-1 : Word).toInt ≠ 0 ∧ ¬NextFits (top 2) 2) ∧
      (ReadsAs (prog []) 1 (imm 0) 0 ∧ ReadsAs (prog []) 2 (imm (-1)) (-1) ∧ NextFits (prog []) 2 ∧ (0 : Word).toInt = 0) :=
  ⟨⟨reads_imm _ _ _ (by decide), reads_imm _ _ _ (by decide), by decide⟩, reads_imm _ _ _ (by decide),
    reads_imm _ _ _ (by decide), by decide⟩

theorem witness_HaltSetsHalted : NextFits (prog [99]) 0 := by decide

theorem witness_AdjustBaseAddsToTheRelativeBase :
    (ReadsAs (prog []) 1 (imm low) low ∧ Fits ((prog []).rb.toInt + low.toInt) ∧ NextFits (prog []) 1) ∧
      (ReadsAs { prog [] with rb := big } 1 (imm 1) 1 ∧ ¬Fits (big.toInt + (1 : Word).toInt) ∧
        (prog []).params.overflow = .fault) ∧
      (ReadsAs { lax [] with rb := big } 1 (imm 1) 1 ∧ (lax []).params.overflow = .wrap ∧
        NextFits { lax [] with rb := big } 1) :=
  ⟨⟨reads_imm _ _ _ (by decide), by decide⟩, ⟨reads_imm _ _ _ (by decide), by decide⟩, reads_imm _ _ _ (by decide),
    by decide⟩

/-- P4: ADD #90, #9, [4] over the opcode word at 4; MUL #33, #3, [4] does the same. -/
theorem witness_StoreOverNextOpcodeIsFetched :
    Memory.wf (prog []).mem ∧ ReadsAs (prog []) 1 (imm 33) 33 ∧ ReadsAs (prog []) 2 (imm 3) 3 ∧
      TargetsAt (prog []) 3 (pos 4) 4 ∧ ((4 : Nat) : Int) = (prog []).pc.toInt + 4 ∧
      Fits ((33 : Word).toInt + (3 : Word).toInt) ∧ Fits ((33 : Word).toInt * (3 : Word).toInt) ∧
      exec (.add (imm 33) (imm 3) (pos 4)) (prog []) = .next { prog [] with mem := [(4, 36)], pc := 4 } ∧
      exec (.mul (imm 33) (imm 3) (pos 4)) (prog []) = .next { prog [] with mem := [(4, 99)], pc := 4 } := by
  refine ⟨by decide, reads_imm _ _ _ (by decide), reads_imm _ _ _ (by decide), ⟨by decide, ?_⟩, by decide, by decide,
    by decide, rfl, rfl⟩
  exact ⟨by decide, by decide⟩

theorem witness_FirstFaultingParameterIsReported :
    readOperand (prog []) 1 (bad 0) = .error (.invalidAddressingMode 1 3) ∧
      (readOperand (prog []) 1 (imm 1) = .ok 1 ∧ readOperand (prog []) 2 (pos (-1)) = .error (.addressOutOfRange (-1))) ∧
      (readOperand (prog []) 2 (imm 1) = .ok 1 ∧ writeTarget (prog []) 3 (imm 5) = .error (.invalidAddressingMode 3 1)) ∧
      ((progIn [] [5]).inq ≠ [] ∧ writeTarget (progIn [] [5]) 1 (imm 0) = .error (.invalidAddressingMode 1 1)) := by decide

/-- At the last address from which the instruction's own words can still be read. -/
theorem witness_NextAddressThatDoesNotFitFaults :
    (¬NextFits (top 3) 3 ∧ ReadsAs (top 3) 1 (imm 0) 0 ∧ ReadsAs (top 3) 2 (imm 1) 1 ∧ TargetsAt (top 3) 3 (pos 0) 0 ∧
      Fits ((0 : Word).toInt + (1 : Word).toInt) ∧ Fits ((0 : Word).toInt * (1 : Word).toInt)) ∧
    (¬NextFits (top 2) 2 ∧ ReadsAs (top 2) 1 (imm 0) 0 ∧ ReadsAs (top 2) 2 (imm 1) 1 ∧ (0 : Word).toInt = 0) ∧
    (¬NextFits (top 2) 2 ∧ ReadsAs (top 2) 1 (imm 1) 1 ∧ ReadsAs (top 2) 2 (imm 1) 1 ∧ (1 : Word).toInt ≠ 0) ∧
    (¬NextFits { top 1 with inq := [5] } 1 ∧ ({ top 1 with inq := [5] } : State).inq ≠ [] ∧
      TargetsAt { top 1 with inq := [5] } 1 (pos 0) 0) ∧
    (¬NextFits (top 1) 1 ∧ ReadsAs (top 1) 1 (imm 1) 1 ∧ Fits ((top 1).rb.toInt + (1 : Word).toInt)) ∧
    ¬NextFits (top 0) 0 ∧
    (¬NextFits (laxTop 3) 3 ∧ ReadsAs (laxTop 3) 1 (imm big) big ∧ ReadsAs (laxTop 3) 2 (imm 2) 2 ∧
      TargetsAt (laxTop 3) 3 (pos 0) 0 ∧ ¬Fits (big.toInt + (2 : Word).toInt) ∧ ¬Fits (big.toInt * (2 : Word).toInt) ∧
      (laxTop 3).params.overflow = .wrap) ∧
    (¬NextFits (laxTop 1) 1 ∧ ReadsAs (laxTop 1) 1 (imm big) big ∧ ¬Fits ((laxTop 1).rb.toInt + big.toInt) ∧
      (laxTop 1).params.overflow = .wrap) := by
  refine ⟨⟨by decide, reads_imm _ _ _ (by decide), reads_imm _ _ _ (by decide), targets_zero _ _ (by decide), by decide⟩,
    ⟨by decide, reads_imm _ _ _ (by decide), reads_imm _ _ _ (by decide), by decide⟩,
    ⟨by decide, reads_imm _ _ _ (by decide), reads_imm _ _ _ (by decide), by decide⟩,
    ⟨by decide, by decide, targets_zero _ _ (by decide)⟩,
    ⟨by decide, reads_imm _ _ _ (by decide), by decide⟩, by decide,
    ⟨by decide, reads_imm _ _ _ (by decide), reads_imm _ _ _ (by decide), targets_zero _ _ (by decide), by decide⟩,
    ⟨by decide, reads_imm _ _ _ (by decide), by decide⟩⟩

theorem witness_StepRunsTheDecodedInstruction :
    Runnable (prog [104, 7]) ∧ fetch (prog [104, 7]) = .ok [104, 7, 0, 0] ∧
      decode (prog [104, 7]).params.extraDigit [104, 7, 0, 0] = .ok (.output (imm 7)) ∧
      (fetch (top 0) = .ok [0, 0, 0, 0] ∧ Addressable (top 0) (top 0).pc.toInt) := by decide

theorem witness_GuardStopsEveryExecutionCommand :
    ({ prog [99] with halted := true } : State).halted = true ∧
      (({ prog [42] with fault := some ⟨.unknownOpcode 42, 0⟩ } : State).halted = false ∧
        ({ prog [42] with fault := some ⟨.unknownOpcode 42, 0⟩ } : State).fault = some ⟨.unknownOpcode 42, 0⟩) ∧
      step (prog [99]) = .next { prog [99] with halted := true, pc := 1 } := ⟨rfl, ⟨rfl, rfl⟩, rfl⟩

theorem witness_FetchChecksTheProgramCounter :
    (Runnable { prog [] with pc := -1 } ∧ ¬Addressable { prog [] with pc := -1 } (-1 : Word).toInt) ∧
      (Runnable (top 0) ∧ Addressable (top 0) (top 0).pc.toInt ∧ ∀ c ∈ (top 0).mem, (c.1 : Int) ≠ (top 0).pc.toInt) := by
  decide

theorem witness_UnknownOpcodeFaults :
    (Runnable (prog [-1]) ∧ Addressable (prog [-1]) (prog [-1]).pc.toInt ∧ (opcodeWord (prog [-1])).toInt < 0) ∧
      (Runnable (prog [98]) ∧ opcodeId (prog [98]) ∉ [1, 2, 3, 4, 5, 6, 7, 8, 9, 99]) := by decide

theorem witness_ExtraDigitsFaultAfterThePause :
    (Runnable (prog [199]) ∧ Addressable (prog [199]) (prog [199]).pc.toInt ∧ 0 ≤ (opcodeWord (prog [199])).toInt ∧
      opcodeId (prog [199]) = Opcode.id .halt ∧ (prog [199]).params.extraDigit = .fault ∧
      (opcodeWord (prog [199])).toNat / 10 ^ (Opcode.nparams .halt + 2) ≠ 0) ∧
    (Runnable (prog [1103]) ∧ Addressable (prog [1103]) (prog [1103]).pc.toInt ∧ 0 ≤ (opcodeWord (prog [1103])).toInt ∧
      opcodeId (prog [1103]) = Opcode.id .input ∧ (prog [1103]).params.extraDigit = .fault ∧
      (opcodeWord (prog [1103])).toNat / 10 ^ (Opcode.nparams .input + 2) ≠ 0 ∧ (prog [1103]).inq = []) := by decide

theorem witness_InPausesOnAnEmptyQueue :
    Runnable (prog [103, 0]) ∧ Addressable (prog [103, 0]) (prog [103, 0]).pc.toInt ∧
      0 ≤ (opcodeWord (prog [103, 0])).toInt ∧ opcodeId (prog [103, 0]) = 3 ∧ (prog [103, 0]).inq = [] := by decide

theorem witness_EveryRunnableStateSteps : Runnable (prog []) ∧ ¬Runnable { prog [] with halted := true } := by decide

theorem witness_ExecutionFaultsArePrecise :
    step (prog [42]) = .next { prog [42] with fault := some ⟨.unknownOpcode 42, 0⟩ } := rfl

theorem witness_HaltedFlagIsOneWay :
    (step (prog [99]) = .next { prog [99] with halted := true, pc := 1 } ∧
      ({ prog [99] with halted := true, pc := 1 } : State).halted ≠ (prog [99]).halted) ∧
      issue 0 .step { prog [99] with halted := true } =
        some (.err .alreadyHalted, { prog [99] with halted := true }) := ⟨⟨rfl, by decide⟩, rfl⟩

theorem witness_OnlyAdjustBaseWritesTheRelativeBase :
    step (prog [109, 19]) = .next { prog [109, 19] with rb := 19, pc := 2 } ∧ (19 : Word) ≠ (prog [109, 19]).rb :=
  ⟨rfl, by decide⟩

theorem witness_OutputLogIsAppendOnly :
    step (prog [104, 7]) = .next { prog [104, 7] with outlog := [(0, 7)], pc := 2 } := rfl

theorem witness_OnlyInConsumesInput :
    step (progIn [3, 5] [1, 2]) = .next { prog [3, 5] with mem := [(0, 3), (1, 5), (5, 1)], inq := [2], pc := 2 } := rfl

theorem witness_StepChangesAtMostOneWord :
    (Memory.wf (prog [109, 19]).mem ∧ step (prog [109, 19]) = .next { prog [109, 19] with rb := 19, pc := 2 } ∧
      opcodeId (prog [109, 19]) ∉ [1, 2, 3, 7, 8]) ∧
    (Memory.wf (progIn [3, 5] [1]).mem ∧
      step (progIn [3, 5] [1]) = .next { prog [3, 5] with mem := [(0, 3), (1, 5), (5, 1)], pc := 2 } ∧
      Memory.read [(0, 3), (1, 5), (5, 1)] 5 ≠ Memory.read (progIn [3, 5] [1]).mem 5) :=
  ⟨⟨by decide, rfl, by decide⟩, by decide, rfl, by decide⟩

theorem witness_StepIgnoresOriginAndOutputLog :
    step (prog [104, 7]) = .next { prog [104, 7] with outlog := [(0, 7)], pc := 2 } := rfl

theorem witness_StepKeepsTheInvariant :
    State.Inv (prog [104, 7]) ∧ step (prog [104, 7]) = .next { prog [104, 7] with outlog := [(0, 7)], pc := 2 } :=
  ⟨by decide, rfl⟩

theorem witness_EveryInstanceKeepsTheInvariant :
    (State.Inv (prog [42]) ∧
      issue 1 .run (prog [42]) =
        some (.faulted ⟨.unknownOpcode 42, 0⟩, { prog [42] with fault := some ⟨.unknownOpcode 42, 0⟩ })) ∧
      hostLoadWords Params.default [99] = (.ok .unit, some (prog [99])) ∧
      hostLoadText Params.default ['9', '9'] = (.ok .unit, some (prog [99])) := ⟨⟨by decide, rfl⟩, rfl, rfl⟩

theorem witness_EveryCommandSequenceKeepsTheInvariant :
    hostLoadWords Params.default [99] = (.ok .unit, some (prog [99])) ∧
      issueAll [(0, .poke 9 4), (1, .run)] (prog [99]) = some ([.ok .unit, .ok (.word 99)],
        { prog [99] with mem := [(0, 99), (9, 4)], halted := true, pc := 1 }) := ⟨rfl, rfl⟩

theorem witness_StepCommandReportsTheStep :
    ({ prog [99] with halted := true } : State).halted = true ∧
      ({ prog [42] with fault := some ⟨.unknownOpcode 42, 0⟩ } : State).fault = some ⟨.unknownOpcode 42, 0⟩ ∧
      (step (prog [3, 0]) = .next (prog [3, 0]) ∧ awaitingInput (prog [3, 0]) = true) ∧
      step (prog [42]) = .next { prog [42] with fault := some ⟨.unknownOpcode 42, 0⟩ } ∧
      (step (prog [99]) = .next { prog [99] with halted := true, pc := 1 } ∧ awaitingInput (prog [99]) = false) :=
  ⟨rfl, rfl, ⟨rfl, rfl⟩, rfl, rfl, rfl⟩

theorem witness_FaultIsStickyUntilReset :
    ({ prog [42] with fault := some ⟨.unknownOpcode 42, 0⟩ } : State).halted = false ∧
      ({ prog [42] with fault := some ⟨.unknownOpcode 42, 0⟩ } : State).fault = some ⟨.unknownOpcode 42, 0⟩ ∧
      issue 0 (.poke 0 99) { prog [42] with fault := some ⟨.unknownOpcode 42, 0⟩ } =
        some (.ok .unit, { prog [42] with mem := [(0, 99)], fault := some ⟨.unknownOpcode 42, 0⟩ }) ∧
      issue 0 .step { prog [42] with fault := some ⟨.unknownOpcode 42, 0⟩ } =
        some (.faulted ⟨.unknownOpcode 42, 0⟩, { prog [42] with fault := some ⟨.unknownOpcode 42, 0⟩ }) ∧
      issue 0 .reset { prog [42] with fault := some ⟨.unknownOpcode 42, 0⟩ } = some (.ok .unit, prog [42]) :=
  ⟨rfl, rfl, rfl, rfl, rfl⟩

/-- A faulted step of `42`, and an instruction that stops no run. -/
def faulted42 : State := { prog [42] with fault := some ⟨.unknownOpcode 42, 0⟩ }

theorem witness_runSteps :
    (Runnable (prog [109, 19]) ∧ hostStep (prog [109, 19]) = (.ok (.instrId 9), { prog [109, 19] with rb := 19, pc := 2 })) ∧
      (Runnable (prog [104, 7]) ∧
        hostStep (prog [104, 7]) = (.ok (.instrId 4), { prog [104, 7] with outlog := [(0, 7)], pc := 2 })) ∧
      (Runnable (prog [99]) ∧ hostStep (prog [99]) = (.ok (.instrId 99), { prog [99] with halted := true, pc := 1 })) ∧
      (Runnable (prog [3, 0]) ∧ hostStep (prog [3, 0]) = (.awaitingInput, prog [3, 0])) ∧
      (Runnable (prog [42]) ∧ hostStep (prog [42]) = (.faulted ⟨.unknownOpcode 42, 0⟩, faulted42)) :=
  ⟨⟨⟨rfl, rfl⟩, rfl⟩, ⟨⟨rfl, rfl⟩, rfl⟩, ⟨⟨rfl, rfl⟩, rfl⟩, ⟨⟨rfl, rfl⟩, rfl⟩, ⟨⟨rfl, rfl⟩, rfl⟩⟩

/-- Its first half has the witness `witness_runSteps`; so have the next two. -/
theorem witness_RunAnswersOnlyWhatHappened :
    hostRun 1 (prog [99]) = some (.ok (.word 99), { prog [99] with halted := true, pc := 1 }) ∧
      hostRun 1 (prog [3, 0]) = some (.awaitingInput, prog [3, 0]) ∧
      hostRun 1 (prog [42]) =
        some (.faulted ⟨.unknownOpcode 42, 0⟩, { prog [42] with fault := some ⟨.unknownOpcode 42, 0⟩ }) ∧
      hostRun 1 { prog [99] with halted := true } = some (.err .alreadyHalted, { prog [99] with halted := true }) :=
  ⟨rfl, rfl, rfl, rfl⟩

theorem witness_RunToOutputAnswersTheNextPair :
    hostRunToOutput 1 (prog [104, 7]) = some (.ok (.pair 0 7), { prog [104, 7] with outlog := [(0, 7)], pc := 2 }) ∧
      hostRunToOutput 1 (prog [99]) = some (.err .starvedForOutput, { prog [99] with halted := true, pc := 1 }) ∧
      hostRunToOutput 1 (prog [3, 0]) = some (.awaitingInput, prog [3, 0]) := ⟨rfl, rfl, rfl⟩

theorem witness_RunToInputWaitTellsPauseFromHalt :
    hostRunToInputWait 1 (prog [3, 0]) = some (.ok (.bool true), prog [3, 0]) ∧
      hostRunToInputWait 1 (prog [99]) = some (.ok (.bool false), { prog [99] with halted := true, pc := 1 }) :=
  ⟨rfl, rfl⟩

theorem witness_MoreFuelGivesTheSameResult :
    issue 1 .run (prog [99]) = some (.ok (.word 99), { prog [99] with halted := true, pc := 1 }) := rfl

theorem witness_QueuedInputGoesToTheTail : awaitingInput (prog [3, 0]) = true := by decide

theorem witness_QueriesReportAndChangeNothing :
    ({ prog [] with outlog := [(0, 7), (2, 8)] } : State).outlog = [(0, 7)] ++ [(2, 8)] ∧ (prog []).outlog = [] :=
  ⟨rfl, rfl⟩

theorem witness_LoadTextAcceptsExactlyTheGrammar :
    (TrimsTo [' ', '7', ',', '-', '5', '\n'] ['7', ',', '-', '5'] ∧ SplitsTo ['7', ',', '-', '5'] [['7'], ['-', '5']] ∧
      List.Forall₂ TokenDenotes [['7'], ['-', '5']] [7, -5]) ∧
      (TrimsTo [' '] [] ∧ SplitsTo [] [[]] ∧ ¬∃ ws, List.Forall₂ TokenDenotes [[]] ws) := by
  refine ⟨⟨⟨[' '], ['\n'], rfl, by simp [TextSpace], by simp [TextSpace], by simp [TextSpace]⟩,
      ⟨by simp, by simp, rfl⟩, .cons ⟨['7'], by simp, by simp, .inl ⟨rfl, by decide⟩⟩
        (.cons ⟨['5'], by simp, by simp, .inr ⟨rfl, by decide⟩⟩ .nil)⟩,
    ⟨[' '], [], rfl, by simp [TextSpace], by simp, by simp⟩, ⟨by simp, by simp, rfl⟩, ?_⟩
  rintro ⟨ws, h⟩
  cases h with
  | cons h _ =>
    obtain ⟨ds, h1, -, ⟨h2, -⟩ | ⟨h2, -⟩⟩ := h
    · exact h1 h2.symm
    · cases h2

theorem witness_InstancesShareNoState :
    systemIssue 0 1 (.queueInput 7) ⟨[prog [99], prog [3, 0]]⟩ =
        some (.ok .unit, ⟨[prog [99], progIn [3, 0] [7]]⟩) ∧
      (0 : Nat) ≠ 1 ∧ 1 < (System.mk [prog [99], prog [3, 0]]).instances.length := ⟨rfl, by decide, by decide⟩

theorem witness_FrameOfTheStoringInstructions :
    Memory.wf (prog []).mem ∧
      exec (.add (imm 2) (imm 3) (pos 9)) (prog []) = .next { prog [] with mem := [(9, 5)], pc := 4 } ∧
      writeTarget (prog []) 3 (pos 9) = .ok 9 ∧ (8 : Nat) ≠ 9 ∧
      (exec (.equals (imm 2) (imm 3) (imm 9)) (prog []) =
          .next { prog [] with fault := some ⟨.invalidAddressingMode 3 1, 0⟩ } ∧
        writeTarget (prog []) 3 (imm 9) = .error (.invalidAddressingMode 3 1)) :=
  ⟨by decide, rfl, rfl, by decide, rfl, rfl⟩

theorem witness_FrameOfIn :
    Memory.wf (progIn [] [5]).mem ∧
      exec (.input (pos 9)) (progIn [] [5]) = .next { prog [] with mem := [(9, 5)], pc := 2 } ∧
      writeTarget (progIn [] [5]) 1 (pos 9) = .ok 9 ∧ (8 : Nat) ≠ 9 ∧
      (exec (.input (imm 9)) (progIn [] [5]) =
          .next { progIn [] [5] with fault := some ⟨.invalidAddressingMode 1 1, 0⟩ } ∧
        writeTarget (progIn [] [5]) 1 (imm 9) = .error (.invalidAddressingMode 1 1)) :=
  ⟨by decide, rfl, rfl, by decide, rfl, rfl⟩

theorem witness_FrameOfTheOtherInstructions :
    exec (.output (imm 7)) (prog []) = .next { prog [] with outlog := [(0, 7)], pc := 2 } ∧
      exec (.adjustBase (imm 7)) (prog []) = .next { prog [] with rb := 7, pc := 2 } ∧
      exec .halt (prog []) = .next { prog [] with halted := true, pc := 1 } ∧
      exec (.jumpIfTrue (imm 1) (imm 7)) (prog []) = .next { prog [] with pc := 7 } ∧
      exec (.jumpIfFalse (imm 1) (imm 7)) (prog []) = .next { prog [] with pc := 3 } ∧
      (Instr.halt ≠ .output (imm 7) ∧ Instr.halt ≠ .adjustBase (imm 7) ∧ Instr.output (imm 7) ≠ .halt) :=
  ⟨rfl, rfl, rfl, rfl, rfl, by decide⟩

end Sys2Proof.Tests
end

/-! PROOFS. The family `10_state.md`: which part of the state a step, an instruction and a command may write, the frames of
the instructions, and the independence of the machines one host holds. -/

namespace Sys2Proof.Machine

/-! ### What a committed effect leaves (10_state.md R31) -/

section Allowed
variable {i : Instr} {s : State} {e : Effect}

theorem EffectAllowed.commit_mem_eq (he : EffectAllowed i s e)
    (h : i.opcode ∉ [Opcode.add, .mul, .input, .lessThan, .equals]) : (commit s e).mem = s.mem := by
  simp only [List.mem_cons, List.not_mem_nil, or_false, not_or] at h
  obtain ⟨hadd, hmul, hin, hlt, heq⟩ := h
  exact commit_mem_none s e (he.mem_none hadd hmul hin hlt heq)

theorem EffectAllowed.commit_inq_eq (he : EffectAllowed i s e) (h : i.opcode ≠ .input) :
    (commit s e).inq = s.inq := by
  simp [he.deq_kept h]

theorem EffectAllowed.commit_outlog_eq (he : EffectAllowed i s e) (h : i.opcode ≠ .output) :
    (commit s e).outlog = s.outlog :=
  commit_outlog_none s e (he.out_kept h)

/-- The effect of an IN takes exactly the head of the queue (R86). -/
theorem EffectAllowed.inq_eq_cons (he : EffectAllowed i s e) (h : i.opcode = .input) :
    ∃ v, s.inq = v :: (commit s e).inq := by
  obtain ⟨hdeq, hne⟩ := he.deq_set h
  obtain ⟨v, q, hq⟩ := List.exists_cons_of_ne_nil hne
  exact ⟨v, by simp [hdeq, hq]⟩

end Allowed

/-- Only the word an effect record names can read otherwise after the commit (20_memory.md R41). -/
theorem mem_eq_some_of_read_commit_ne {s : State} {e : Effect} {a : Nat} (hwf : Memory.wf s.mem)
    (h : Memory.read (commit s e).mem a ≠ Memory.read s.mem a) : ∃ v, e.mem = some (a, v) := by
  cases hm : e.mem with
  | none => exact absurd (by rw [commit_mem_none s e hm]) h
  | some q =>
    obtain ⟨d, v⟩ := q
    rw [commit_mem_some s e hm, Memory.read_write hwf] at h
    have had : a = d := by
      by_contra hne
      exact h (if_neg hne)
    exact ⟨v, by rw [had]⟩

/-! ### What a step can change -/

section Changed
variable {α : Type} {s s' : State}

/-- What a fault keeps, a step changes only by committing an allowed effect. -/
theorem step_committed_of_ne (f : State → α) (hraise : ∀ c, f (raise s c) = f s) (h : step s = .next s')
    (hne : f s' ≠ f s) : ∃ i e, Opcode.id i.opcode = opcodeId s ∧ EffectAllowed i s e ∧ s' = commit s e := by
  obtain ⟨-, ⟨c, rfl, -⟩ | ⟨rfl, -⟩ | ⟨i, e, hid, he, hs', -⟩⟩ := step_cases h
  · exact absurd (hraise c) hne
  · exact absurd rfl hne
  · exact ⟨i, e, hid, he, hs'⟩

/-- What a fault keeps and of all effects only those of `op` can change, a step changes only by committing one of `op`. -/
theorem step_opcode_of_ne (f : State → α) (op : Opcode) (hraise : ∀ c, f (raise s c) = f s)
    (hkept : ∀ i e, EffectAllowed i s e → i.opcode ≠ op → f (commit s e) = f s) (h : step s = .next s')
    (hne : f s' ≠ f s) : opcodeId s = op.id ∧ ∃ i e, i.opcode = op ∧ EffectAllowed i s e ∧ s' = commit s e := by
  obtain ⟨i, e, hid, he, rfl⟩ := step_committed_of_ne f hraise h hne
  have hop : i.opcode = op := by
    by_contra hop
    exact hne (hkept i e he hop)
  exact ⟨by rw [← hid, hop], i, e, hop, he, rfl⟩

end Changed

theorem step_origin_params {s s' : State} (h : step s = .next s') : s'.origin = s.origin ∧ s'.params = s.params := by
  obtain ⟨-, ⟨c, rfl, -⟩ | ⟨rfl, -⟩ | ⟨i, e, -, -, rfl, -⟩⟩ := step_cases h
  · exact ⟨rfl, rfl⟩
  · exact ⟨rfl, rfl⟩
  · exact ⟨rfl, rfl⟩

/-- Settles O10: a step by its cases, a command by the induction packaged in `issue_keeps`. -/
theorem onlyLoadWritesOrigin : Obligations.OnlyLoadWritesOrigin := by
  refine ⟨fun s s' => step_origin_params, fun fuel c s s' r h => ?_, fun p ws s r h => ?_⟩
  · exact issue_keeps (P := fun t => t.origin = s.origin ∧ t.params = s.params) (fun t ht => ht) (fun t a v ht _ => ht)
      (fun t vs ht => ht)
      (fun t t' ht hstep => ⟨(step_origin_params hstep).1.trans ht.1, (step_origin_params hstep).2.trans ht.2⟩) h ⟨rfl, rfl⟩
  · unfold hostLoadWords at h
    split at h
    · cases h
      rfl
    · cases h

/-! ### Commands while `HALTED` is set -/

/-- While `HALTED` is set the guard answers every execution command, and nothing changes (R22, R105). -/
theorem issue_execution_of_halted {fuel : Nat} {c : Command} {s : State} (hs : s.halted = true)
    (hc : c ∈ [Command.step, .run, .runToOutput, .runToInputWait]) :
    issue fuel c s = some (.err .alreadyHalted, s) := by
  have hg : guardFault s = some .alreadyHalted := by simp [guardFault, hs]
  have hrun : ∀ answer, runCommand answer fuel s = some (.err .alreadyHalted, s) := fun answer => by
    simp [runCommand, hg, guardResponse]
  simp only [List.mem_cons, List.not_mem_nil, or_false] at hc
  rcases hc with rfl | rfl | rfl | rfl
  · simp [issue, hostStep, hg, guardResponse]
  · exact hrun _
  · exact hrun _
  · exact hrun _

/-- A command that neither executes nor resets writes memory and the input queue at most (R101 to R104, R110, R111). -/
theorem issue_writes_mem_inq {fuel : Nat} {c : Command} {s s' : State} {r : Response} (hreset : c ≠ .reset)
    (hc : c ∉ [Command.step, .run, .runToOutput, .runToInputWait]) (h : issue fuel c s = some (r, s')) :
    ∃ m q, s' = { s with mem := m, inq := q } := by
  cases c with
  | reset => exact absurd rfl hreset
  | step | run | runToOutput | runToInputWait => simp at hc
  | peek a =>
    simp only [issue, hostPeek, Option.some.injEq] at h
    split at h <;> (cases h; exact ⟨_, _, rfl⟩)
  | poke a v =>
    simp only [issue, hostPoke, Option.some.injEq] at h
    split at h <;> (cases h; exact ⟨_, _, rfl⟩)
  | getLastOutput =>
    simp only [issue, hostGetLastOutput, Option.some.injEq] at h
    split at h <;> (cases h; exact ⟨_, _, rfl⟩)
  | queueInput _ | queueInputs _ | readStatus | getOutputs =>
    cases h
    exact ⟨_, _, rfl⟩

/-- Settles O34: a step that changes the flag committed a HALT; while it is set the guard stops the execution commands, and
the commands that execute nothing do not write the flag. -/
theorem haltedFlagIsOneWay : Obligations.HaltedFlagIsOneWay := by
  refine ⟨fun s s' h hne => ?_, fun fuel c s s' r hs h => ?_⟩
  · obtain ⟨hid, i, e, hop, he, rfl⟩ :=
      step_opcode_of_ne State.halted .halt (fun _ => rfl) (fun _ _ he hop => he.halted_kept hop) h hne
    exact ⟨he.halted_set hop, hid⟩
  · by_cases hc : c ∈ [Command.step, .run, .runToOutput, .runToInputWait]
    · rw [issue_execution_of_halted hs hc] at h
      cases h
      exact ⟨fun _ => hs, fun _ => rfl⟩
    · refine ⟨fun hreset => ?_, fun hc' => absurd hc' hc⟩
      obtain ⟨m, q, rfl⟩ := issue_writes_mem_inq hreset hc h
      exact hs

/-! ### The registers, the queue, the log and the memory under a step -/

/-- Settles O35: a step that changes `RB` committed the effect of an ADJUST-BASE. -/
theorem onlyAdjustBaseWritesTheRelativeBase : Obligations.OnlyAdjustBaseWritesTheRelativeBase := fun _ _ h hne =>
  (step_opcode_of_ne State.rb .adjustBase (fun _ => rfl) (fun _ _ he hop => he.rb_kept hop) h hne).1

/-- Settles O36: a step that changes the log committed the effect of an OUT, which appends one pair. -/
theorem outputLogIsAppendOnly : Obligations.OutputLogIsAppendOnly := by
  intro s s' h
  by_cases hlog : s'.outlog = s.outlog
  · exact .inl hlog
  · obtain ⟨hid, i, e, hop, he, rfl⟩ :=
      step_opcode_of_ne State.outlog .output (fun _ => rfl) (fun _ _ he hop => he.commit_outlog_eq hop) h hlog
    obtain ⟨v, hv⟩ := he.out_set hop
    exact .inr ⟨hid, v, commit_outlog_some s e hv⟩

/-- Settles O37: a step that changes the queue committed the effect of an IN, which takes the head. -/
theorem onlyInConsumesInput : Obligations.OnlyInConsumesInput := by
  intro s s' h
  by_cases hinq : s'.inq = s.inq
  · exact .inl hinq
  · obtain ⟨hid, i, e, hop, he, rfl⟩ :=
      step_opcode_of_ne State.inq .input (fun _ => rfl) (fun _ _ he hop => he.commit_inq_eq hop) h hinq
    exact .inr ⟨hid, he.inq_eq_cons hop⟩

/-- Settles O38: a step that changes memory committed an effect, and an effect names one word at most, which only the five
storing instructions name. -/
theorem stepChangesAtMostOneWord : Obligations.StepChangesAtMostOneWord := by
  intro s s' hwf h
  refine ⟨fun hs => ?_, fun a b ha hb => ?_⟩
  · by_contra hne
    obtain ⟨i, e, hid, he, rfl⟩ := step_committed_of_ne State.mem (fun _ => rfl) h hne
    refine hne (he.commit_mem_eq fun hop => hs ?_)
    rw [← hid]
    exact List.mem_map_of_mem (f := Opcode.id) hop
  · have hne : s'.mem ≠ s.mem := fun heq => ha (by rw [heq])
    obtain ⟨i, e, -, -, rfl⟩ := step_committed_of_ne State.mem (fun _ => rfl) h hne
    obtain ⟨v, hv⟩ := mem_eq_some_of_read_commit_ne hwf ha
    obtain ⟨w, hw⟩ := mem_eq_some_of_read_commit_ne hwf hb
    rw [hv] at hw
    cases hw
    rfl

/-! ### No instruction reads the origin or the log -/

/-- The state with another origin snapshot and another output log. -/
def State.withOriginLog (s : State) (o : List Word) (l : List (Word × Word)) : State := { s with origin := o, outlog := l }

/-- The outcomes `x`, from `s`, and `y`, from `s` with origin `o` and log `l`, are next states that differ as their starts do:
the same pairs are appended to either log, and the rest is equal. -/
def SameBesideOriginLog (s : State) (o : List Word) (l : List (Word × Word)) (x y : Host.Outcome State Fault Refusal) :
    Prop :=
  ∃ s' more, x = .next s' ∧ s'.outlog = s.outlog ++ more ∧ y = .next (s'.withOriginLog o (l ++ more))

section OriginLog
variable (s : State) (o : List Word) (l : List (Word × Word))

theorem sameBesideOriginLog_next {s' : State} (h : s'.outlog = s.outlog) :
    SameBesideOriginLog s o l (.next s') (.next (s'.withOriginLog o l)) :=
  ⟨s', [], rfl, by simp [h], by simp⟩

/-- The same effect record or the same fault ends an instruction in the same way. -/
theorem complete_sameBesideOriginLog (r : Except Cause Effect) :
    SameBesideOriginLog s o l (complete s r) (complete (s.withOriginLog o l) r) := by
  cases r with
  | error c => exact sameBesideOriginLog_next s o l (s' := raise s c) rfl
  | ok e =>
    refine ⟨commit s e, e.out.toList, rfl, ?_, ?_⟩
    · cases hout : e.out <;> simp [hout]
    · cases hout : e.out <;> simp [complete, commit, State.withOriginLog, hout]

/-- Every handler builds its effect record from the parts of the state that the two states share. -/
theorem exec_sameBesideOriginLog (i : Instr) :
    SameBesideOriginLog s o l (exec i s) (exec i (s.withOriginLog o l)) := by
  cases i with
  | input t =>
    cases hq : s.inq with
    | nil =>
      have hx : exec (.input t) s = .next s := by simp [exec, execInput, hq, pause]
      have hy : exec (.input t) (s.withOriginLog o l) = .next (s.withOriginLog o l) := by
        simp [exec, execInput, State.withOriginLog, hq, pause]
      rw [hx, hy]
      exact sameBesideOriginLog_next s o l rfl
    | cons v q =>
      have hx : exec (.input t) s = complete s (takeInput s t v) := by simp [exec, execInput, hq]
      have hy : exec (.input t) (s.withOriginLog o l) = complete (s.withOriginLog o l) (takeInput s t v) := by
        simp only [exec, execInput, State.withOriginLog, hq]
        rfl
      rw [hx, hy]
      exact complete_sameBesideOriginLog s o l _
  | add a b t | mul a b t | lessThan a b t | equals a b t | jumpIfTrue a b | jumpIfFalse a b | output a | adjustBase a
  | halt => exact complete_sameBesideOriginLog s o l _

theorem rejectOutcome_sameBesideOriginLog (e : Reject) :
    SameBesideOriginLog s o l (rejectOutcome s e) (rejectOutcome (s.withOriginLog o l) e) := by
  cases e with
  | unknownOpcode w => exact sameBesideOriginLog_next s o l (s' := raise s _) rfl
  | extraDigits op value =>
    by_cases hp : op = .input ∧ s.inq = []
    · rw [rejectOutcome, if_pos hp, rejectOutcome, if_pos (show op = .input ∧ (s.withOriginLog o l).inq = [] from hp)]
      exact sameBesideOriginLog_next s o l rfl
    · rw [rejectOutcome, if_neg hp, rejectOutcome, if_neg (show ¬(op = .input ∧ (s.withOriginLog o l).inq = []) from hp)]
      exact sameBesideOriginLog_next s o l (s' := raise s _) rfl

theorem cycle_sameBesideOriginLog : SameBesideOriginLog s o l (cycle s) (cycle (s.withOriginLog o l)) := by
  have hfetch : fetch (s.withOriginLog o l) = fetch s := rfl
  have hparams : (s.withOriginLog o l).params = s.params := rfl
  cases hf : fetch s with
  | error c =>
    simp only [cycle, hfetch, hf]
    exact sameBesideOriginLog_next s o l (s' := raise s c) rfl
  | ok ws =>
    cases hd : decode s.params.extraDigit ws with
    | error e =>
      simp only [cycle, hfetch, hparams, hf, hd]
      exact rejectOutcome_sameBesideOriginLog s o l e
    | ok i =>
      simp only [cycle, hfetch, hparams, hf, hd]
      exact exec_sameBesideOriginLog s o l i

end OriginLog

/-- Settles O39: the guard reads neither, and `cycle_sameBesideOriginLog` says it of the step behind it. -/
theorem stepIgnoresOriginAndOutputLog : Obligations.StepIgnoresOriginAndOutputLog := by
  intro s s' o l h
  obtain ⟨hguard, hcycle⟩ := step_next.1 h
  obtain ⟨t, more, hx, hmore, hy⟩ := cycle_sameBesideOriginLog s o l
  rw [hcycle] at hx
  cases hx
  exact ⟨more, hmore, step_next.2 ⟨hguard, hy⟩⟩

/-! ### Several instances -/

theorem systemLoadWords_appends (p : Params) (ws : List Word) (sys : System) :
    ∃ new, (systemLoadWords p ws sys).2.instances = sys.instances ++ new := by
  unfold systemLoadWords
  split
  · exact ⟨_, rfl⟩
  · exact ⟨[], by simp⟩

theorem systemLoadText_appends (p : Params) (text : List Char) (sys : System) :
    ∃ new, (systemLoadText p text sys).2.instances = sys.instances ++ new := by
  unfold systemLoadText
  split
  · exact ⟨_, rfl⟩
  · exact ⟨[], by simp⟩

/-- A command of the host runs on the state at the place it names, and writes that place alone. -/
theorem systemIssue_some {fuel k : Nat} {c : Command} {sys sys' : System} {r : Response}
    (h : systemIssue fuel k c sys = some (r, sys')) :
    ∃ s s', sys.instances[k]? = some s ∧ issue fuel c s = some (r, s') ∧
      sys'.instances = sys.instances.set k s' := by
  unfold systemIssue at h
  split at h
  · cases h
  · rename_i s hs
    split at h
    · cases h
    · rename_i r' s' hi
      cases h
      exact ⟨s, s', hs, hi, rfl⟩

/-- Settles O52: a command sets one place of the list, a load appends to it. -/
theorem instancesShareNoState : Obligations.InstancesShareNoState := by
  refine ⟨fun fuel k c sys sys' r h => ?_, fun p ws text sys j hj => ⟨?_, ?_⟩⟩
  · obtain ⟨s, s', hs, hi, hset⟩ := systemIssue_some h
    have hk : k < sys.instances.length := (List.getElem?_eq_some_iff.1 hs).1
    rw [hset]
    exact ⟨List.length_set, fun j hj => List.getElem?_set_ne hj.symm, s, s', hs, hi, List.getElem?_set_self hk⟩
  · obtain ⟨new, hnew⟩ := systemLoadWords_appends p ws sys
    rw [hnew, List.getElem?_append_left hj]
  · obtain ⟨new, hnew⟩ := systemLoadText_appends p text sys
    rw [hnew, List.getElem?_append_left hj]

/-! ### Frames of the instructions -/

/-- A memory that is as before, or differs by one write at the resolved target, is as before off the target. -/
theorem mem_frame_of_target {s s' : State} {n : Nat} {t : Operand} (hwf : Memory.wf s.mem)
    (h : s'.mem = s.mem ∨ ∃ d v, writeTarget s n t = .ok d ∧ s'.mem = Memory.write s.mem d v) :
    (∀ d, writeTarget s n t = .ok d → ∀ x, x ≠ d → Memory.read s'.mem x = Memory.read s.mem x) ∧
      ∀ c, writeTarget s n t = .error c → s'.mem = s.mem := by
  obtain heq | ⟨d, v, hd, heq⟩ := h
  · exact ⟨fun _ _ x _ => by rw [heq], fun _ _ => heq⟩
  · refine ⟨fun d' hd' x hx => ?_, fun c hc => ?_⟩
    · rw [hd] at hd'
      cases hd'
      rw [heq, Memory.read_write hwf, if_neg hx]
    · rw [hd] at hc
      cases hc

/-- An instruction of the format `F3RRW` takes its fault, or writes its target and `PC` alone (R57, R77). -/
theorem complete_readReadWrite_next {s s' : State} {a b t : Operand} {f : Word → Word → Except Cause Word}
    (h : complete s (readReadWrite s a b t f) = .next s') :
    (∃ c, s' = raise s c) ∨
      ∃ d r pc, writeTarget s 3 t = .ok d ∧ s' = { s with mem := Memory.write s.mem d r, pc := pc } := by
  obtain ⟨e, he, rfl⟩ | ⟨c, -, hc⟩ := complete_next.1 h
  · obtain ⟨x, y, d, r, pc, -, -, hd, -, -, rfl⟩ := readReadWrite_ok.1 he
    exact .inr ⟨d, r, pc, hd, rfl⟩
  · exact .inl ⟨c, hc⟩

/-- ADD, MUL, LESS-THAN and EQUALS differ in the word they compute. -/
theorem exec_eq_complete_readReadWrite {s : State} {a b t : Operand} {i : Instr}
    (hi : i ∈ [Instr.add a b t, .mul a b t, .lessThan a b t, .equals a b t]) :
    ∃ f, exec i s = complete s (readReadWrite s a b t f) := by
  simp only [List.mem_cons, List.not_mem_nil, or_false] at hi
  rcases hi with rfl | rfl | rfl | rfl
  · exact ⟨_, rfl⟩
  · exact ⟨_, rfl⟩
  · exact ⟨_, rfl⟩
  · exact ⟨_, rfl⟩

/-- Settles O53, by the two ends of `complete_readReadWrite_next`. -/
theorem frameOfTheStoringInstructions : Obligations.FrameOfTheStoringInstructions := by
  intro s s' a b t i hwf hi h
  obtain ⟨f, hf⟩ := exec_eq_complete_readReadWrite (s := s) hi
  obtain ⟨c, rfl⟩ | ⟨d, r, pc, hd, rfl⟩ := complete_readReadWrite_next (hf.symm.trans h)
  · exact ⟨⟨rfl, rfl⟩, rfl, rfl, rfl, rfl, .inr ⟨c, rfl⟩, mem_frame_of_target hwf (.inl rfl)⟩
  · exact ⟨⟨rfl, rfl⟩, rfl, rfl, rfl, rfl, .inl rfl, mem_frame_of_target hwf (.inr ⟨d, r, hd, rfl⟩)⟩

/-- IN pauses, takes its fault, or moves the head of the queue to its target and writes `PC` (R85, R86). -/
theorem exec_input_next {s s' : State} {t : Operand} (h : exec (.input t) s = .next s') :
    s' = s ∨ (∃ c, s' = raise s c) ∨
      ∃ d v q pc, writeTarget s 1 t = .ok d ∧ s.inq = v :: q ∧
        s' = { s with mem := Memory.write s.mem d v, inq := q, pc := pc } := by
  cases hq : s.inq with
  | nil =>
    simp only [exec, execInput, hq, pause, Host.Outcome.next.injEq] at h
    exact .inl h.symm
  | cons v q =>
    simp only [exec, execInput, hq] at h
    obtain ⟨e, he, rfl⟩ | ⟨c, -, hc⟩ := complete_next.1 h
    · obtain ⟨d, pc, hd, -, rfl⟩ := takeInput_ok.1 he
      exact .inr (.inr ⟨d, v, q, pc, hd, rfl, by simp [commit, keepBut, hq]⟩)
    · exact .inr (.inl ⟨c, hc⟩)

/-- Settles O54, by the three ends of `exec_input_next`. -/
theorem frameOfIn : Obligations.FrameOfIn := by
  intro s s' t hwf h
  obtain rfl | ⟨c, rfl⟩ | ⟨d, v, q, pc, hd, hq, rfl⟩ := exec_input_next h
  · exact ⟨⟨rfl, rfl⟩, rfl, rfl, rfl, .inl rfl, .inl rfl, mem_frame_of_target hwf (.inl rfl)⟩
  · exact ⟨⟨rfl, rfl⟩, rfl, rfl, rfl, .inl rfl, .inr ⟨c, rfl⟩, mem_frame_of_target hwf (.inl rfl)⟩
  · exact ⟨⟨rfl, rfl⟩, rfl, rfl, rfl, .inr ⟨v, hq⟩, .inl rfl, mem_frame_of_target hwf (.inr ⟨d, v, hd, rfl⟩)⟩

/-- Settles O55: what R31 allows the opcode of each of the five, by `exec_cases`. -/
theorem frameOfTheOtherInstructions : Obligations.FrameOfTheOtherInstructions := by
  intro s s' a b i hi h
  have hop : i.opcode ∉ [Opcode.add, .mul, .input, .lessThan, .equals] ∧ (i ≠ .output a → i.opcode ≠ .output) ∧
      (i ≠ .adjustBase a → i.opcode ≠ .adjustBase) ∧ (i ≠ .halt → i.opcode ≠ .halt) := by
    simp only [List.mem_cons, List.not_mem_nil, or_false] at hi
    rcases hi with rfl | rfl | rfl | rfl | rfl <;> simp [Instr.opcode]
  obtain ⟨hstores, hout, hadjust, hhalt⟩ := hop
  have hinput : i.opcode ≠ .input := fun hin => hstores (by simp [hin])
  obtain ⟨e, he, hx⟩ | ⟨c, hx⟩ | ⟨hin, -, -⟩ := exec_cases i s
  · cases hx.symm.trans h
    exact ⟨⟨rfl, rfl⟩, he.commit_mem_eq hstores, he.commit_inq_eq hinput, .inl rfl, fun hne => he.commit_outlog_eq (hout hne),
      fun hne => he.rb_kept (hadjust hne), fun hne => he.halted_kept (hhalt hne)⟩
  · cases hx.symm.trans h
    exact ⟨⟨rfl, rfl⟩, rfl, rfl, .inr ⟨c, rfl⟩, fun _ => rfl, fun _ => rfl, fun _ => rfl⟩
  · exact absurd hin hinput

/-! ### Reset -/

/-- Settles O40: the memory and the origin after reset are empty, and neither `HALTED` nor `FAULT` is set. -/
theorem resetSatisfiesTheInvariant : Obligations.ResetSatisfiesTheInvariant :=
  ⟨Memory.wf_nil, fun _ hc => absurd hc List.not_mem_nil, fun h => Bool.false_ne_true h.1, Nat.zero_le _⟩

end Sys2Proof.Machine

/-! PROOFS. The family `20_memory.md`: memory in canonical form is determined by what it reads as, every step keeps the
invariant of an instance, and a result stored over the next opcode word is the word fetched next. -/

namespace Sys2Proof.Machine

/-! ### Canonical memories (20_memory.md R36) -/

/-- The cells of a canonical memory are its non-zero words, each at its address. -/
theorem Memory.mem_iff_read {m : Memory} (h : Memory.wf m) {a : Nat} {v : Word} :
    (a, v) ∈ m ↔ Memory.read m a = v ∧ v ≠ 0 := by
  induction m with
  | nil => simpa using fun hv : (0 : Word) = v => hv.symm
  | cons c m ih =>
    obtain ⟨b, u⟩ := c
    obtain ⟨hb, hu, hm⟩ := Memory.wf_cons.1 h
    rw [List.mem_cons, Memory.read_cons, Prod.mk.injEq]
    by_cases hab : a = b
    · have hnot : (a, v) ∉ m := fun hmem => (hb _ hmem).ne' hab
      rw [if_pos hab]
      constructor
      · rintro (⟨-, rfl⟩ | hmem)
        · exact ⟨rfl, hu⟩
        · exact absurd hmem hnot
      · exact fun hv => .inl ⟨hab, hv.1.symm⟩
    · simp [hab, ih hm]

/-- Settles O5: two canonical memories that read alike list the same cells, in the same strictly rising order. -/
theorem equalReadsAreEqualMemories : Obligations.EqualReadsAreEqualMemories := by
  intro m m' hm hm' hread
  have hirrefl : Std.Irrefl fun c d : Nat × Word => c.1 < d.1 := ⟨fun c => Nat.lt_irrefl c.1⟩
  refine List.Pairwise.eq_of_mem_iff hm.1 hm'.1 fun ⟨a, v⟩ => ?_
  rw [Memory.mem_iff_read hm, Memory.mem_iff_read hm', hread]

/-! ### The invariant under one step -/

/-- Committing an effect R31 allows keeps memory canonical and in range (20_memory.md R35, R36). -/
theorem EffectAllowed.commit_mem_wf_within {i : Instr} {s : State} {e : Effect} (he : EffectAllowed i s e)
    (hwf : Memory.wf s.mem) (hin : Memory.within s.mem s.params.maxAddr.val) :
    Memory.wf (commit s e).mem ∧ Memory.within (commit s e).mem s.params.maxAddr.val := by
  cases hm : e.mem with
  | none =>
    rw [commit_mem_none s e hm]
    exact ⟨hwf, hin⟩
  | some q =>
    obtain ⟨d, v⟩ := q
    rw [commit_mem_some s e hm]
    exact ⟨Memory.write_wf hwf d v, Memory.write_within hin (he.mem_addr d v hm) v⟩

/-- Settles O41: a step raises a fault with `HALTED` clear, pauses, or commits an allowed effect with `FAULT` clear; the
memory a fault keeps is decision D6. -/
theorem stepKeepsTheInvariant : Obligations.StepKeepsTheInvariant := by
  rintro s s' ⟨hwf, hin, hflags, horigin⟩ h
  obtain ⟨⟨hhalted, hfault⟩, ⟨c, rfl, -⟩ | ⟨rfl, -⟩ | ⟨i, e, -, he, rfl, -⟩⟩ := step_cases h
  · exact ⟨hwf, hin, by simp [hhalted], horigin⟩
  · exact ⟨hwf, hin, hflags, horigin⟩
  · obtain ⟨hwf', hin'⟩ := he.commit_mem_wf_within hwf hin
    exact ⟨hwf', hin', by simp [hfault], horigin⟩

/-! ### The resolver meets the operand relations (40_decode_and_operands.md R73, R74) -/

theorem readOperand_ok {s : State} {i : Nat} {o : Operand} {v : Word} :
    readOperand s i o = .ok v ↔ ReadsAs s i o v := by
  unfold ReadsAs
  by_cases h : Addressable s (s.pc.toInt + i)
  · rw [readOperand_of_word h, and_iff_right h]
    cases o.mode with
    | position => exact readAt_ok
    | immediate => simp [eq_comm]
    | relative => exact readAt_ok
    | reserved _ => simp
  · simp [readOperand, operandWord_error.2 ⟨h, rfl⟩, h]

theorem writeTarget_ok {s : State} {i : Nat} {o : Operand} {d : Nat} :
    writeTarget s i o = .ok d ↔ TargetsAt s i o d := by
  have hcheck : ∀ x, checkAddr s.params x = .ok d ↔ Addressable s x ∧ (d : Int) = x := fun x =>
    checkAddr_ok.trans (and_congr_right fun hx => by omega)
  unfold TargetsAt
  by_cases h : Addressable s (s.pc.toInt + i)
  · rw [writeTarget_of_word h, and_iff_right h]
    cases o.mode with
    | position => exact hcheck _
    | immediate => simp
    | relative => exact hcheck _
    | reserved _ => simp
  · simp [writeTarget, operandWord_error.2 ⟨h, rfl⟩, h]

/-! ### A store over the next opcode word (20_memory.md R49) -/

/-- An instruction of the format `F3RRW` whose operands resolve stores the word its handler answers (R57, R77). -/
theorem complete_readReadWrite_stores {s : State} {a b t : Operand} {x y r : Word} {d : Nat}
    {f : Word → Word → Except Cause Word} (ha : ReadsAs s 1 a x) (hb : ReadsAs s 2 b y) (ht : TargetsAt s 3 t d)
    (hf : f x y = .ok r) (hn : NextFits s 3) : complete s (readReadWrite s a b t f) = Stores s d r := by
  have hpc : seqPC s 3 = .ok (nextPC s 3) := seqPC_ok.2 ⟨fits64_iff.2 hn, rfl⟩
  rw [readReadWrite_ok.2 ⟨x, y, d, r, _, readOperand_ok.2 ha, readOperand_ok.2 hb, writeTarget_ok.2 ht, hf, hpc, rfl⟩]
  rfl

/-- The fetch at an address just written reads the word written there. -/
theorem fetch_written {s : State} {d : Nat} {r pc : Word} (hwf : Memory.wf s.mem) (hd : d ≤ s.params.maxAddr.val)
    (hpc : pc.toInt = d) :
    ∃ ws, fetch { s with mem := Memory.write s.mem d r, pc := pc } = .ok ws ∧ ws.getD 0 0 = r := by
  refine ⟨_, fetch_ok.2 ⟨?_, rfl⟩, ?_⟩
  · simp only [hpc]
    omega
  · simp [hpc, Memory.read_write hwf]

/-- What ADD and MUL share: where the exact result fits and the target is `pc0 + 4`, the next state fetches that result
(R49, R82). -/
theorem fetch_narrow_stored_over_next {s s' : State} {a b t : Operand} {x y : Word} {d : Nat} {op : ArithOp}
    {result : Word → Word → Int} (hwf : Memory.wf s.mem) (ha : ReadsAs s 1 a x) (hb : ReadsAs s 2 b y)
    (ht : TargetsAt s 3 t d) (hd : (d : Int) = s.pc.toInt + 4) (hfits : Fits (result x y))
    (h : complete s (readReadWrite s a b t fun u v => narrow s.params op u v (result u v)) = .next s') :
    ∃ ws, fetch s' = .ok ws ∧ (ws.getD 0 0).toInt = result x y := by
  have hle : d ≤ s.params.maxAddr.val := writeTarget_le (writeTarget_ok.2 ht)
  have hnext : NextFits s 3 := by
    have := s.params.maxAddr.isLt
    omega
  have hpc : (nextPC s 3).toInt = d := (toInt_wrap64 (fits64_iff.2 hnext)).trans (by omega)
  have hr : narrow s.params op x y (result x y) = .ok (wrap64 (result x y)) :=
    narrow_ok.2 ⟨.inl (fits64_iff.2 hfits), rfl⟩
  cases (complete_readReadWrite_stores ha hb ht hr hnext).symm.trans h
  obtain ⟨ws, hws, hword⟩ := fetch_written (r := wrap64 (result x y)) hwf hle hpc
  exact ⟨ws, hws, by rw [hword, toInt_wrap64 (fits64_iff.2 hfits)]⟩

/-- Settles O23: ADD and MUL are the two instances of `fetch_narrow_stored_over_next`. -/
theorem storeOverNextOpcodeIsFetched : Obligations.StoreOverNextOpcodeIsFetched :=
  fun _ _ _ _ _ _ _ _ hwf ha hb ht hd =>
    ⟨fetch_narrow_stored_over_next (op := .add) (result := fun x y => x.toInt + y.toInt) hwf ha hb ht hd,
      fetch_narrow_stored_over_next (op := .mul) (result := fun x y => x.toInt * y.toInt) hwf ha hb ht hd⟩

end Sys2Proof.Machine

/-! PROOFS. The family `30_encoding.md`: a word list decodes to an instruction exactly where the decimal fields of its opcode
word and its parameter words are that instruction's. The round trip, the spellings of a legal instruction and its length are
read off this one characterisation. -/

namespace Sys2Proof.Machine

open Sys2Proof.Laws

/-! ### The opcode value of R64 -/

theorem opcodeFields (i : Instr) : OpcodeFields.Statement i := by
  cases i with
  | add a b t => exact OpcodeFields.add a b t
  | mul a b t => exact OpcodeFields.mul a b t
  | input t => exact OpcodeFields.input t
  | output a => exact OpcodeFields.output a
  | jumpIfTrue a b => exact OpcodeFields.jumpIfTrue a b
  | jumpIfFalse a b => exact OpcodeFields.jumpIfFalse a b
  | lessThan a b t => exact OpcodeFields.lessThan a b t
  | equals a b t => exact OpcodeFields.equals a b t
  | adjustBase a => exact OpcodeFields.adjustBase a
  | halt => exact OpcodeFields.halt

theorem nparams_le (op : Opcode) : op.nparams ≤ 3 := by cases op <;> decide

theorem length_operands (i : Instr) : i.operands.length = i.opcode.nparams := by
  obtain ⟨-, -, -, hlen, -⟩ := opcodeFields i
  exact hlen

theorem opcodeValue_lt (i : Instr) : opcodeValue i < 100000 := by
  obtain ⟨-, -, hlt, -, -⟩ := opcodeFields i
  exact hlt

/-- The opcode value is the sum R64 writes out, an absent parameter counting as mode 0. -/
theorem opcodeValue_eq_sum (i : Instr) :
    opcodeValue i = i.opcode.id + 100 * modeAt i 1 + 1000 * modeAt i 2 + 10000 * modeAt i 3 := by
  have hlen : i.operands.length ≤ 3 := length_operands i ▸ nparams_le i.opcode
  unfold opcodeValue modeAt
  match i.operands, hlen with
  | [], _ => simp [modeDigits]
  | [a], _ => simp [modeDigits]
  | [a, b], _ => simp [modeDigits, add_assoc]
  | [a, b, t], _ => simp [modeDigits, add_assoc]

/-- A number that fits `Int64` reads back from its word, signed and unsigned alike (00_scope.md R7). -/
theorem toNat_toInt_ofNat {n : Nat} (h : n ≤ 2 ^ 63 - 1) :
    (BitVec.ofNat 64 n).toNat = n ∧ (BitVec.ofNat 64 n).toInt = (n : Int) := by
  have hn : (BitVec.ofNat 64 n).toNat = n := by rw [BitVec.toNat_ofNat, Nat.mod_eq_of_lt (by omega)]
  exact ⟨hn, by rw [BitVec.toInt_eq_toNat_of_lt (by omega), hn]⟩

/-! ### Decimal digits (30_encoding.md R54 to R56) -/

/-- What stands from digit `e` upwards does not show in a digit below it. -/
theorem digit_add_mul_pow (n j : Nat) {d e : Nat} (h : d < e) : (n + j * 10 ^ e) / 10 ^ d % 10 = n / 10 ^ d % 10 := by
  obtain ⟨c, rfl⟩ := Nat.exists_eq_add_of_lt h
  have hsplit : j * 10 ^ (d + c + 1) = 10 ^ d * (10 * (j * 10 ^ c)) := by ring
  rw [hsplit, Nat.add_mul_div_left _ _ (by positivity), Nat.add_mul_mod_self_left]

/-- The two id digits, the mode digits and what stands above them make up a number. -/
theorem eq_of_fields {n m N : Nat} (hid : n % 100 = m % 100)
    (hmodes : ∀ k < N, n / 10 ^ (k + 2) % 10 = m / 10 ^ (k + 2) % 10) (hextra : n / 10 ^ (N + 2) = m / 10 ^ (N + 2)) :
    n = m := by
  induction N with
  | zero => omega
  | succ N ih =>
    refine ih (fun k hk => hmodes k (by omega)) ?_
    have hmode := hmodes N (by omega)
    have hsplit : ∀ x : Nat, x / 10 ^ (N + 1 + 2) = x / 10 ^ (N + 2) / 10 := fun x => by
      rw [Nat.div_div_eq_div_mul, ← pow_succ]
    rw [hsplit, hsplit] at hextra
    omega

/-! ### What decodes to an instruction -/

theorem ofId_eq_some {n : Nat} {op : Opcode} : Opcode.ofId n = some op ↔ n = op.id :=
  ⟨fun h => (ofId_some h).symm, fun h => h ▸ ofId_id op⟩

theorem id_injective {op op' : Opcode} (h : op.id = op'.id) : op = op' :=
  Option.some.inj ((ofId_eq_some.2 h).symm.trans (ofId_id op)).symm

theorem digit_ofDigit : ∀ d : Fin 10, (Mode.ofDigit d).digit = d.val := by decide

theorem ofDigit_digit (m : Mode) (h : m.digit < 10) : Mode.ofDigit ⟨m.digit, h⟩ = m := by
  cases m with
  | position => rfl
  | immediate => rfl
  | relative => rfl
  | reserved r =>
    revert r
    decide

/-- Each mode, legal or reserved, has one decimal digit (R58, R60). -/
theorem eq_ofDigit {m : Mode} {d : Fin 10} : m = Mode.ofDigit d ↔ d.val = m.digit := by
  constructor
  · rintro rfl
    exact (digit_ofDigit d).symm
  · intro h
    have hd : d = ⟨m.digit, h ▸ d.isLt⟩ := Fin.ext h
    rw [hd, ofDigit_digit]

theorem eq_operandAt {o : Operand} {n i : Nat} {ws : List Word} :
    o = operandAt n ws i ↔ n / 10 ^ (i + 1) % 10 = o.mode.digit ∧ o.word = ws.getD i 0 := by
  obtain ⟨m, w⟩ := o
  simp only [operandAt, Operand.mk.injEq, eq_ofDigit, decimalDigit]

/-- An instruction is built from its opcode and its operands in order (R57). -/
theorem eq_build {i : Instr} {o : Nat → Operand} :
    i = Instr.build i.opcode o ↔ ∀ k (h : k < i.operands.length), i.operands[k] = o (k + 1) := by
  have hlist : i = Instr.build i.opcode o ↔ i.operands = (List.range i.opcode.nparams).map fun k => o (k + 1) := by
    cases i <;> simp [Instr.opcode, Instr.build, Instr.operands, Opcode.nparams, List.range_succ]
  rw [hlist, List.ext_getElem_iff]
  simp [length_operands]

/-- A word list decodes to `i` exactly where its opcode word is not negative and has the id and the mode digits of `i`, no
digit above them is there under the policy `fault`, and the parameter words are those of `i` (R52 to R56). -/
theorem decode_eq_ok_iff_fields {policy : ExtraDigitPolicy} {ws : List Word} {i : Instr} :
    decode policy ws = .ok i ↔
      0 ≤ (ws.getD 0 0).toInt ∧ (ws.getD 0 0).toNat % 100 = i.opcode.id ∧
        ¬(extraDigits i.opcode (ws.getD 0 0).toNat ≠ 0 ∧ policy = .fault) ∧
        ∀ k (h : k < i.operands.length), (ws.getD 0 0).toNat / 10 ^ (k + 2) % 10 = (i.operands[k]).mode.digit ∧
          (i.operands[k]).word = ws.getD (k + 1) 0 := by
  rw [decode_ok, ofId_eq_some, eq_build]
  simp only [eq_operandAt]

/-- The words of an instruction, legal or not, decode to it whatever follows; where the policy ignores them, with any digits
`j` above its mode digits. -/
theorem decode_spelling {policy : ExtraDigitPolicy} {i : Instr} {j : Nat} (rest : List Word)
    (hfits : opcodeValue i + j * 10 ^ (i.opcode.nparams + 2) ≤ 2 ^ 63 - 1) (hj : j ≠ 0 → policy = .ignore) :
    decode policy (BitVec.ofNat 64 (opcodeValue i + j * 10 ^ (i.opcode.nparams + 2)) ::
      (i.operands.map Operand.word ++ rest)) = .ok i := by
  obtain ⟨hid, hextra, -, hlen, hmodes⟩ := opcodeFields i
  obtain ⟨hnat, hint⟩ := toNat_toInt_ofNat hfits
  rw [decode_eq_ok_iff_fields, List.getD_cons_zero, hnat, hint]
  refine ⟨by positivity, ?_, ?_, fun k hk => ⟨?_, ?_⟩⟩
  · rw [pow_add, ← mul_assoc]
    omega
  · rw [extraDigits, Nat.add_mul_div_right _ _ (by positivity), ← extraDigits, hextra, zero_add]
    rintro ⟨hne, rfl⟩
    exact nomatch hj hne
  · rw [digit_add_mul_pow _ _ (by omega)]
    exact hmodes k hk
  · simp [List.getElem?_append_left, hk]

theorem decode_instrWords (policy : ExtraDigitPolicy) (i : Instr) (rest : List Word) :
    decode policy (instrWords i ++ rest) = .ok i := by
  have hlt := opcodeValue_lt i
  simpa [instrWords] using decode_spelling (policy := policy) (i := i) (j := 0) rest (by omega) (by simp)

/-- Settles O1: what the encoder makes are an instruction's words, and these decode to it by `decode_instrWords`. -/
theorem decodeOfEncodeIsIdentity : Obligations.DecodeOfEncodeIsIdentity := by
  refine ⟨fun policy i ws rest h => ?_, decode_instrWords⟩
  obtain ⟨-, rfl⟩ := encode_some.1 h
  exact decode_instrWords policy i rest

/-- Under the policy `fault` the opcode word of what decodes to `i` is the one of R64: all its decimal fields are fixed. -/
theorem opcodeWord_of_decode_fault {ws : List Word} {i : Instr} (h : decode .fault ws = .ok i) :
    ws.getD 0 0 = BitVec.ofNat 64 (opcodeValue i) := by
  obtain ⟨-, hid, hextra, hops⟩ := decode_eq_ok_iff_fields.1 h
  obtain ⟨hid', hextra', -, hlen, hmodes⟩ := opcodeFields i
  have hvalue : (ws.getD 0 0).toNat = opcodeValue i := by
    refine eq_of_fields (N := i.opcode.nparams) (hid.trans hid'.symm) (fun k hk => ?_) ?_
    · obtain ⟨hmode, -⟩ := hops k (hlen ▸ hk)
      exact hmode.trans (hmodes k (hlen ▸ hk)).symm
    · have hzero : extraDigits i.opcode (ws.getD 0 0).toNat = 0 := by simpa using hextra
      exact hzero.trans hextra'.symm
  rw [← hvalue, BitVec.ofNat_toNat, BitVec.setWidth_eq]

/-- Settles O2: the fields fix the word under `fault`; under `ignore` the extra digits are free. -/
theorem legalInstructionHasOneOpcodeWord : Obligations.LegalInstructionHasOneOpcodeWord := by
  refine ⟨fun i _ => ⟨?_, fun ws => opcodeWord_of_decode_fault⟩, fun i j _ _ hfits => ?_⟩
  · simpa using decode_instrWords .fault i []
  · simpa using decode_spelling [] hfits fun _ => rfl

/-- Settles O4: of the opcode word the decoder reads the id, which fixes the length, and it reads one word per parameter. -/
theorem opcodeWordAloneGivesTheLength : Obligations.OpcodeWordAloneGivesTheLength := by
  refine ⟨fun policy policy' ws ws' i i' hw h h' => ?_, fun policy ws ws' i h hsame => ?_⟩
  · obtain ⟨-, hid, -, -⟩ := decode_eq_ok_iff_fields.1 h
    obtain ⟨-, hid', -, -⟩ := decode_eq_ok_iff_fields.1 h'
    have hop : i.opcode = i'.opcode := id_injective (by rw [← hid, hw, hid'])
    exact ⟨by rw [Instr.length, hop, Instr.length], hop⟩
  · have hw : ws'.getD 0 0 = ws.getD 0 0 := hsame 0 (by simp [Instr.length])
    obtain ⟨hsign, hid, hextra, hops⟩ := decode_eq_ok_iff_fields.1 h
    rw [decode_eq_ok_iff_fields, hw]
    refine ⟨hsign, hid, hextra, fun k hk => ?_⟩
    rw [hsame (k + 1) (by rw [Instr.length, ← length_operands]; omega)]
    exact hops k hk

/-! ### The encoder -/

/-- Settles O56: `opcodeValue_eq_sum` is the formula of R64, and an immediate write target is not legal (R60). -/
theorem encoderGivesTheWordsOrRefuses : Obligations.EncoderGivesTheWordsOrRefuses := by
  refine ⟨fun i hi => ⟨BitVec.ofNat 64 (opcodeValue i), ?_, encode_some.2 ⟨hi, rfl⟩⟩, fun i => encode_none.2,
    fun a b t ht i hi => encode_none.2 ?_⟩
  · have hlt := opcodeValue_lt i
    rw [(toNat_toInt_ofNat (by omega)).2, opcodeValue_eq_sum]
  · have htarget : t.legalTarget = false := by rw [Operand.legalTarget, ht]
    simp only [List.mem_cons, List.not_mem_nil, or_false] at hi
    obtain rfl | rfl | rfl | rfl | rfl := hi <;> simp [Instr.wellFormed, htarget]

/-- Settles O3: the decoder computes on the words written out in V-DEC. -/
theorem specOpcodeWordsDecode : Obligations.SpecOpcodeWordsDecode := by
  unfold Obligations.SpecOpcodeWordsDecode
  decide

/-! ### No encoding stops the machine (30_encoding.md R60) -/

theorem cycle_answers_next (s : State) : ∃ s', cycle s = .next s' := by
  obtain ⟨c, h, -⟩ | ⟨h, -⟩ | ⟨i, e, -, -, h, -⟩ := cycle_cases s
  · exact ⟨_, h⟩
  · exact ⟨_, h⟩
  · exact ⟨_, h⟩

theorem step_fault_of_guardFault {s : State} {f : Fault} (h : guardFault s = some f) : step s = .fault f := by
  simp [step, guardedCycle, h]

/-- Settles O32: where the guard passes, `Step` answers a next state, and where it does not, it answers its fault. -/
theorem everyRunnableStateSteps : Obligations.EveryRunnableStateSteps := by
  refine fun s => ⟨fun hrun => ?_, fun hstopped => ?_⟩
  · obtain ⟨s', h⟩ := cycle_answers_next s
    exact ⟨s', step_next.2 ⟨hrun, h⟩⟩
  · obtain ⟨f, hf⟩ := Option.ne_none_iff_exists'.1 (mt guardFault_none.1 hstopped)
    exact ⟨f, step_fault_of_guardFault hf⟩

end Sys2Proof.Machine

/-! PROOFS. The family `40_decode_and_operands.md`: what the resolver answers in each mode, how an instruction depends on its
operands and which of their faults it raises, and which instruction or fault a step makes of the words at `PC`. -/

namespace Sys2Proof.Machine

/-! ### The resolver, mode by mode (R73, R74) -/

section Resolver
variable {s : State} {i : Nat}

theorem readOperand_of_param_not_addressable {o : Operand} (h : ¬Addressable s (s.pc.toInt + i)) :
    readOperand s i o = .error (.addressOutOfRange (s.pc.toInt + i)) := by
  rw [readOperand, operandWord_error.2 ⟨h, rfl⟩]

theorem writeTarget_of_param_not_addressable {o : Operand} (h : ¬Addressable s (s.pc.toInt + i)) :
    writeTarget s i o = .error (.addressOutOfRange (s.pc.toInt + i)) := by
  rw [writeTarget, operandWord_error.2 ⟨h, rfl⟩]

end Resolver

/-- Settles O12: `readOperand_ok` says what resolves; a fault is that of the parameter's address or of its mode. -/
theorem readOperandResolvesByMode : Obligations.ReadOperandResolvesByMode := by
  refine fun s i o => ⟨fun v => readOperand_ok, readOperand_of_param_not_addressable, fun h => ?_⟩
  rw [readOperand_of_word h]
  refine ⟨fun hm hk => ?_, fun hm hk => ?_, fun d hm => ?_⟩
  · rw [hm]
    exact readAt_error.2 ⟨hk, rfl⟩
  · rw [hm]
    exact readAt_error.2 ⟨hk, rfl⟩
  · rw [hm]

/-- Settles O13: `writeTarget_ok` says what resolves; a fault is that of the parameter's address or of its mode. -/
theorem writeTargetResolvesByMode : Obligations.WriteTargetResolvesByMode := by
  refine fun s i o => ⟨fun d => writeTarget_ok, writeTarget_of_param_not_addressable, fun h => ?_⟩
  rw [writeTarget_of_word h]
  refine ⟨fun hm hk => ?_, fun hm hk => ?_, fun hm => ?_, fun d hm => ?_⟩
  · rw [hm]
    exact checkAddr_error.2 ⟨hk, rfl⟩
  · rw [hm]
    exact checkAddr_error.2 ⟨hk, rfl⟩
  · rw [hm]
  · rw [hm]

/-! ### Relative mode (R75, R80) -/

section Relative
variable {s : State} {i : Nat}

theorem fits_of_addressable {a : Int} (h : Addressable s a) : Fits a := by
  have := s.params.maxAddr.isLt
  omega

/-- A sum that is a word reads back from it, so the two operands name one address (R80). -/
theorem relative_eq_position {k : Word} (h : Fits (k.toInt + s.rb.toInt)) :
    writeTarget s i ⟨.relative, k⟩ = writeTarget s i ⟨.position, BitVec.ofInt 64 (k.toInt + s.rb.toInt)⟩ ∧
      readOperand s i ⟨.relative, k⟩ = readOperand s i ⟨.position, BitVec.ofInt 64 (k.toInt + s.rb.toInt)⟩ := by
  have hsum : (BitVec.ofInt 64 (k.toInt + s.rb.toInt)).toInt = k.toInt + s.rb.toInt := toInt_wrap64 (fits64_iff.2 h)
  by_cases hparam : Addressable s (s.pc.toInt + i)
  · simp only [writeTarget_of_word hparam, readOperand_of_word hparam, hsum, and_self]
  · simp only [writeTarget_of_param_not_addressable hparam, readOperand_of_param_not_addressable hparam, and_self]

/-- As target and as read, a relative operand whose sum is no address faults alike: with the sum, unless the parameter's own
address is none either. -/
theorem relative_error {k : Word} (h : ¬Addressable s (k.toInt + s.rb.toInt)) :
    ∃ e : Int, (Addressable s (s.pc.toInt + i) → e = k.toInt + s.rb.toInt) ∧
      writeTarget s i ⟨.relative, k⟩ = .error (.addressOutOfRange e) ∧
      readOperand s i ⟨.relative, k⟩ = .error (.addressOutOfRange e) := by
  by_cases hparam : Addressable s (s.pc.toInt + i)
  · refine ⟨k.toInt + s.rb.toInt, fun _ => rfl, ?_, ?_⟩
    · rw [writeTarget_of_word hparam]
      exact checkAddr_error.2 ⟨h, rfl⟩
    · rw [readOperand_of_word hparam]
      exact readAt_error.2 ⟨h, rfl⟩
  · exact ⟨_, fun hp => absurd hp hparam, writeTarget_of_param_not_addressable hparam,
      readOperand_of_param_not_addressable hparam⟩

end Relative

/-- Settles O14: an address is a word, so `relative_eq_position` applies to it; and to every sum that is a word, where the
fault is that of `relative_error`. -/
theorem relativeIsPositionAtTheSum : Obligations.RelativeIsPositionAtTheSum := by
  refine fun s i k => ⟨fun h => relative_eq_position (fits_of_addressable h), fun h => ?_⟩
  obtain ⟨e, he, htarget, hread⟩ := relative_error (i := i) h
  refine ⟨e, he, htarget, hread, fun hfits => ?_⟩
  obtain ⟨htarget', hread'⟩ := relative_eq_position (i := i) hfits
  exact ⟨htarget'.symm.trans htarget, hread'.symm.trans hread⟩

/-! ### Which fault the handlers' effect records are (R72, R78) -/

section EffectErrors
variable {s : State} {a b t : Operand} {c : Cause}

theorem readTwo_error :
    readTwo s a b = .error c ↔
      readOperand s 1 a = .error c ∨ ∃ x, readOperand s 1 a = .ok x ∧ readOperand s 2 b = .error c := by
  unfold readTwo
  cases readOperand s 1 a <;> cases readOperand s 2 b <;> simp

/-- The order of R78 for the format `F3RRW`: the reads, the target, the handler's own fault, the next `PC`. -/
theorem readReadWrite_error {f : Word → Word → Except Cause Word} :
    readReadWrite s a b t f = .error c ↔
      readTwo s a b = .error c ∨ ∃ x y, readTwo s a b = .ok (x, y) ∧
        (writeTarget s 3 t = .error c ∨ ∃ d, writeTarget s 3 t = .ok d ∧
          (f x y = .error c ∨ ∃ r, f x y = .ok r ∧ seqPC s 3 = .error c)) := by
  unfold readReadWrite
  cases readTwo s a b with
  | error c' => simp
  | ok q =>
    obtain ⟨x, y⟩ := q
    cases writeTarget s 3 t with
    | error c' => simp
    | ok d =>
      cases hf : f x y with
      | error c' => simp [hf]
      | ok r => cases seqPC s 3 <;> simp [hf]

/-- A taken jump has no fault beyond those of its operands (R88). -/
theorem jumpWhen_error {taken : Word → Bool} :
    jumpWhen s a b taken = .error c ↔
      readTwo s a b = .error c ∨
        ∃ x y, readTwo s a b = .ok (x, y) ∧ taken x = false ∧ seqPC s 2 = .error c := by
  unfold jumpWhen
  cases readTwo s a b with
  | error c' => simp
  | ok q =>
    obtain ⟨x, y⟩ := q
    cases ht : taken x <;> cases seqPC s 2 <;> simp [ht]

theorem takeInput_error {v : Word} :
    takeInput s t v = .error c ↔
      writeTarget s 1 t = .error c ∨ ∃ d, writeTarget s 1 t = .ok d ∧ seqPC s 1 = .error c := by
  unfold takeInput
  cases writeTarget s 1 t <;> cases seqPC s 1 <;> simp

theorem emitOutput_error :
    emitOutput s a = .error c ↔
      readOperand s 1 a = .error c ∨ ∃ x, readOperand s 1 a = .ok x ∧ seqPC s 1 = .error c := by
  unfold emitOutput
  cases readOperand s 1 a <;> cases seqPC s 1 <;> simp

theorem adjustEffect_error :
    adjustEffect s a = .error c ↔
      readOperand s 1 a = .error c ∨ ∃ x, readOperand s 1 a = .ok x ∧
        (narrow s.params .adjustBase s.rb x (s.rb.toInt + x.toInt) = .error c ∨
          ∃ r, narrow s.params .adjustBase s.rb x (s.rb.toInt + x.toInt) = .ok r ∧ seqPC s 1 = .error c) := by
  unfold adjustEffect
  cases readOperand s 1 a with
  | error c' => simp
  | ok x =>
    cases hn : narrow s.params .adjustBase s.rb x (s.rb.toInt + x.toInt) with
    | error c' => simp [hn]
    | ok r => cases seqPC s 1 <;> simp [hn]

theorem haltEffect_error : haltEffect s = .error c ↔ seqPC s 0 = .error c := by
  unfold haltEffect
  cases seqPC s 0 <;> simp

/-- An instruction whose effect record is a fault takes it; that the rest of the state is kept is decision D6 (log entry 6). -/
theorem complete_of_error {r : Except Cause Effect} (h : r = .error c) : complete s r = Raises s c := by
  rw [h]
  rfl

theorem exec_input_of_inq_ne_nil (h : s.inq ≠ []) : ∃ v, exec (.input t) s = complete s (takeInput s t v) := by
  obtain ⟨v, q, hq⟩ := List.exists_cons_of_ne_nil h
  exact ⟨v, by simp only [exec, execInput, hq]⟩

end EffectErrors

/-! ### The first faulting parameter (R78) -/

section FirstFault
variable {s : State} {a b t : Operand} {c : Cause}

theorem exec_raises_of_readTwo_error (h : readTwo s a b = .error c) :
    ∀ i ∈ [Instr.add a b t, .mul a b t, .lessThan a b t, .equals a b t, .jumpIfTrue a b, .jumpIfFalse a b],
      exec i s = Raises s c := by
  intro i hi
  obtain hstore | hjump := List.mem_append.1
    (show i ∈ [Instr.add a b t, .mul a b t, .lessThan a b t, .equals a b t] ++ [.jumpIfTrue a b, .jumpIfFalse a b] from hi)
  · obtain ⟨f, hf⟩ := exec_eq_complete_readReadWrite (s := s) hstore
    rw [hf]
    exact complete_of_error (readReadWrite_error.2 (.inl h))
  · simp only [List.mem_cons, List.not_mem_nil, or_false] at hjump
    obtain rfl | rfl := hjump
    · exact complete_of_error (jumpWhen_error.2 (.inl h))
    · exact complete_of_error (jumpWhen_error.2 (.inl h))

theorem exec_raises_of_readOperand_error (h : readOperand s 1 a = .error c) :
    ∀ i ∈ [Instr.output a, .adjustBase a], exec i s = Raises s c := by
  intro i hi
  simp only [List.mem_cons, List.not_mem_nil, or_false] at hi
  obtain rfl | rfl := hi
  · exact complete_of_error (emitOutput_error.2 (.inl h))
  · exact complete_of_error (adjustEffect_error.2 (.inl h))

end FirstFault

/-- Settles O24: each handler resolves its parameters in declaration order and before anything else. -/
theorem firstFaultingParameterIsReported : Obligations.FirstFaultingParameterIsReported := by
  refine fun s a b t x y c => ⟨fun ha i hi => ?_, fun ha hb => ?_, fun ha hb ht i hi => ?_, fun hq ht => ?_⟩
  · obtain htwo | hone := List.mem_append.1
      (show i ∈ [Instr.add a b t, .mul a b t, .lessThan a b t, .equals a b t, .jumpIfTrue a b, .jumpIfFalse a b] ++
        [.output a, .adjustBase a] from hi)
    · exact exec_raises_of_readTwo_error (readTwo_error.2 (.inl ha)) i htwo
    · exact exec_raises_of_readOperand_error ha i hone
  · exact exec_raises_of_readTwo_error (readTwo_error.2 (.inr ⟨x, ha, hb⟩))
  · obtain ⟨f, hf⟩ := exec_eq_complete_readReadWrite (s := s) hi
    rw [hf]
    exact complete_of_error (readReadWrite_error.2 (.inr ⟨x, y, readTwo_ok.2 ⟨ha, hb⟩, .inl ht⟩))
  · obtain ⟨v, hv⟩ := exec_input_of_inq_ne_nil (t := t) hq
    rw [hv]
    exact complete_of_error (takeInput_error.2 (.inl ht))

/-! ### The sequential next address (R76) -/

section NextAddress
variable {s : State}

theorem seqPC_of_not_nextFits {n : Nat} (h : ¬NextFits s n) :
    seqPC s n = .error (.addressOutOfRange (s.pc.toInt + (1 + n : Nat))) := by
  refine seqPC_error.2 ⟨Bool.eq_false_iff.2 (mt fits64_iff.1 h), ?_⟩
  rw [Nat.cast_add, Nat.cast_one, add_assoc]

theorem exists_narrow_ok {op : ArithOp} {x y : Word} {v : Int} (h : Fits v ∨ s.params.overflow = .wrap) :
    ∃ r, narrow s.params op x y v = .ok r :=
  ⟨_, narrow_ok.2 ⟨h.imp_left fits64_iff.2, rfl⟩⟩

/-- The last fault of the format `F3RRW`: the operands resolve and the handler answers, but the next address does not fit. -/
theorem complete_readReadWrite_next_not_fits {a b t : Operand} {x y : Word} {d : Nat}
    {f : Word → Word → Except Cause Word} (hn : ¬NextFits s 3) (ha : ReadsAs s 1 a x) (hb : ReadsAs s 2 b y)
    (ht : TargetsAt s 3 t d) (hf : ∃ r, f x y = .ok r) :
    complete s (readReadWrite s a b t f) = Raises s (.addressOutOfRange (s.pc.toInt + 4)) := by
  obtain ⟨r, hr⟩ := hf
  have hreads : readTwo s a b = .ok (x, y) := readTwo_ok.2 ⟨readOperand_ok.2 ha, readOperand_ok.2 hb⟩
  exact complete_of_error (readReadWrite_error.2
    (.inr ⟨x, y, hreads, .inr ⟨d, writeTarget_ok.2 ht, .inr ⟨r, hr, seqPC_of_not_nextFits hn⟩⟩⟩))

/-- The last fault of a jump that is not taken. -/
theorem complete_jumpWhen_next_not_fits {a b : Operand} {x y : Word} {taken : Word → Bool} (hn : ¬NextFits s 2)
    (ha : ReadsAs s 1 a x) (hb : ReadsAs s 2 b y) (ht : taken x = false) :
    complete s (jumpWhen s a b taken) = Raises s (.addressOutOfRange (s.pc.toInt + 3)) :=
  complete_of_error (jumpWhen_error.2
    (.inr ⟨x, y, readTwo_ok.2 ⟨readOperand_ok.2 ha, readOperand_ok.2 hb⟩, ht, seqPC_of_not_nextFits hn⟩))

end NextAddress

/-- Settles O25: `SeqPC` is the last stage of every handler, so its fault is what is left when all before it pass. -/
theorem nextAddressThatDoesNotFitFaults : Obligations.NextAddressThatDoesNotFitFaults := by
  refine fun s a b t x y d d1 => ⟨fun hn ha hb ht => ?_, fun hn ha hb => ?_, fun hn hq ht => ?_, fun hn ha => ?_, fun hn => ?_⟩
  · exact ⟨fun hfits => complete_readReadWrite_next_not_fits hn ha hb ht (exists_narrow_ok hfits),
      fun hfits => complete_readReadWrite_next_not_fits hn ha hb ht (exists_narrow_ok hfits),
      complete_readReadWrite_next_not_fits hn ha hb ht ⟨_, rfl⟩, complete_readReadWrite_next_not_fits hn ha hb ht ⟨_, rfl⟩⟩
  · exact ⟨fun hx => complete_jumpWhen_next_not_fits hn ha hb (by simp [nonZero, hx]),
      fun hx => complete_jumpWhen_next_not_fits hn ha hb (by simp [nonZero, hx])⟩
  · obtain ⟨v, hv⟩ := exec_input_of_inq_ne_nil (t := t) hq
    rw [hv]
    exact complete_of_error (takeInput_error.2 (.inr ⟨d1, writeTarget_ok.2 ht, seqPC_of_not_nextFits hn⟩))
  · refine ⟨complete_of_error (emitOutput_error.2 (.inr ⟨x, readOperand_ok.2 ha, seqPC_of_not_nextFits hn⟩)), fun hfits => ?_⟩
    obtain ⟨r, hr⟩ := exists_narrow_ok (op := .adjustBase) (x := s.rb) (y := x) hfits
    exact complete_of_error
      (adjustEffect_error.2 (.inr ⟨x, readOperand_ok.2 ha, .inr ⟨r, hr, seqPC_of_not_nextFits hn⟩⟩))
  · exact complete_of_error (haltEffect_error.2 (seqPC_of_not_nextFits hn))

/-! ### Independence of the mode (R79) -/

section ModeIndependence
variable {s : State} {a a' b b' : Operand}

theorem readReadWrite_congr (t : Operand) (f : Word → Word → Except Cause Word) (h : readTwo s a b = readTwo s a' b') :
    readReadWrite s a b t f = readReadWrite s a' b' t f := by
  rw [readReadWrite, h, readReadWrite]

theorem jumpWhen_congr (taken : Word → Bool) (h : readTwo s a b = readTwo s a' b') :
    jumpWhen s a b taken = jumpWhen s a' b' taken := by
  rw [jumpWhen, h, jumpWhen]

theorem emitOutput_congr (h : readOperand s 1 a = readOperand s 1 a') : emitOutput s a = emitOutput s a' := by
  rw [emitOutput, h, emitOutput]

theorem adjustEffect_congr (h : readOperand s 1 a = readOperand s 1 a') : adjustEffect s a = adjustEffect s a' := by
  rw [adjustEffect, h, adjustEffect]

end ModeIndependence

/-- Settles O15: a handler receives what `ReadOperand` answers, and by `readOperand_ok` that is the same value. -/
theorem readOperandsAreModeIndependent : Obligations.ReadOperandsAreModeIndependent := by
  intro s a a' b b' t x y ha ha' hb hb'
  have hone : readOperand s 1 a = readOperand s 1 a' := (readOperand_ok.2 ha).trans (readOperand_ok.2 ha').symm
  have htwo : readTwo s a b = readTwo s a' b' :=
    (readTwo_ok.2 ⟨readOperand_ok.2 ha, readOperand_ok.2 hb⟩).trans
      (readTwo_ok.2 ⟨readOperand_ok.2 ha', readOperand_ok.2 hb'⟩).symm
  have hstore : ∀ f, complete s (readReadWrite s a b t f) = complete s (readReadWrite s a' b' t f) := fun f =>
    congrArg (complete s) (readReadWrite_congr t f htwo)
  have hjump : ∀ taken, complete s (jumpWhen s a b taken) = complete s (jumpWhen s a' b' taken) := fun taken =>
    congrArg (complete s) (jumpWhen_congr taken htwo)
  exact ⟨hstore _, hstore _, hstore _, hstore _, hjump _, hjump _, congrArg (complete s) (emitOutput_congr hone),
    congrArg (complete s) (adjustEffect_congr hone)⟩

/-! ### A step and the words at `PC` (R66 to R68) -/

section Step
variable {s : State}

/-- Where the guard lets a state through, a step is the instruction cycle and nothing around it. -/
theorem step_eq_cycle (h : Runnable s) : step s = cycle s := by
  simp only [step, guardedCycle, guardFault_none.2 h]

theorem step_of_fetch_error {c : Cause} (h : Runnable s) (hf : fetch s = .error c) : step s = Raises s c := by
  simp only [step_eq_cycle h, cycle, hf, raise]

/-- What decides that a word list decodes to nothing is its first word, and that is the opcode word (R61). -/
theorem step_of_decode_error {e : Reject} (h : Runnable s) (hpc : Addressable s s.pc.toInt)
    (hd : ∀ ws : List Word, ws.getD 0 0 = opcodeWord s → decode s.params.extraDigit ws = .error e) :
    step s = rejectOutcome s e := by
  simp only [step_eq_cycle h, cycle, fetch_ok.2 ⟨hpc, rfl⟩, hd _ List.getD_cons_zero]

end Step

/-- Settles O26: behind the guard a step is the cycle, and `fetch_ok` lists the four words. -/
theorem stepRunsTheDecodedInstruction : Obligations.StepRunsTheDecodedInstruction := by
  refine fun s => ⟨fun ws i hrun hf hd => ?_, fun ws hf k hk => ?_, fun hpc => ⟨_, fetch_ok.2 ⟨hpc, rfl⟩⟩⟩
  · simp only [step_eq_cycle hrun, cycle, hf, hd]
  · obtain ⟨-, rfl⟩ := fetch_ok.1 hf
    match k, hk with
    | 0, _ => rfl
    | 1, _ => rfl
    | 2, _ => rfl
    | 3, _ => rfl

/-! ### Opcode words that decode to no instruction (R69, R70) -/

/-- The table has no other ids than those of R59. -/
theorem ofId_of_not_mem_table {n : Nat} (h : n ∉ [1, 2, 3, 4, 5, 6, 7, 8, 9, 99]) : Opcode.ofId n = none := by
  refine Option.eq_none_iff_forall_ne_some.2 fun op hop => h ?_
  rw [ofId_eq_some.1 hop]
  cases op <;> decide

section Rejects
variable {policy : ExtraDigitPolicy} {ws : List Word}

theorem decode_of_unknown
    (h : (ws.getD 0 0).toInt < 0 ∨ Opcode.ofId ((ws.getD 0 0).toNat % 100) = none) :
    decode policy ws = .error (.unknownOpcode (ws.getD 0 0)) := by
  unfold decode
  by_cases hneg : (ws.getD 0 0).toInt < 0
  · simp only [if_pos hneg]
  · simp only [if_neg hneg, h.resolve_left hneg]

theorem decode_fault_of_extraDigits {op : Opcode} (hsign : 0 ≤ (ws.getD 0 0).toInt)
    (hid : (ws.getD 0 0).toNat % 100 = op.id) (hextra : extraDigits op (ws.getD 0 0).toNat ≠ 0) :
    decode .fault ws = .error (.extraDigits op (extraDigits op (ws.getD 0 0).toNat)) := by
  unfold decode
  simp only [if_neg (not_lt.2 hsign), ofId_eq_some.2 hid]
  exact if_pos ⟨hextra, trivial⟩

end Rejects

/-- Settles O29: the step rejects such a word with the fault R69 names. -/
theorem unknownOpcodeFaults : Obligations.UnknownOpcodeFaults := by
  intro s hrun hpc hbad
  refine step_of_decode_error (e := .unknownOpcode (opcodeWord s)) hrun hpc fun ws hw => ?_
  rw [← hw]
  exact decode_of_unknown (by rw [hw]; exact hbad.imp_right ofId_of_not_mem_table)

/-- Settles O28: the fetch faults, or the unlisted word reads 0, whose id is none of the table. -/
theorem fetchChecksTheProgramCounter : Obligations.FetchChecksTheProgramCounter := by
  refine fun s hrun => ⟨fun hpc => step_of_fetch_error hrun (fetch_error.2 ⟨hpc, rfl⟩), fun hpc hunlisted => ?_⟩
  have hzero : opcodeWord s = 0 := Memory.read_unlisted fun c hc hcpc => hunlisted c hc (by omega)
  have hstep := unknownOpcodeFaults s hrun hpc (.inr (by rw [opcodeId, hzero]; decide))
  rwa [hzero] at hstep

/-- Settles O30: the decoder rejects such a word for its extra digits, and the pause of an IN comes before their fault. -/
theorem extraDigitsFaultAfterThePause : Obligations.ExtraDigitsFaultAfterThePause := by
  intro s op hrun hpc hsign hid hpolicy hextra
  have hstep : step s = rejectOutcome s (.extraDigits op (extraDigits op (opcodeWord s).toNat)) := by
    refine step_of_decode_error hrun hpc fun ws hw => ?_
    rw [hpolicy, ← hw]
    rw [← hw] at hsign hextra
    exact decode_fault_of_extraDigits hsign (by rw [hw]; exact hid) hextra
  rw [hstep, rejectOutcome]
  exact ⟨fun hpause => if_neg hpause, fun hpause => if_pos hpause⟩

end Sys2Proof.Machine

/-! PROOFS. The family `41_arithmetic.md`: the integer law of R82, proved once for every instruction of the format `F3RRW`
whose handler narrows an exact result. -/

namespace Sys2Proof.Machine

/-- Operands and target resolve before the handler is asked, so the handler's own fault is the one taken (R78). -/
theorem complete_readReadWrite_raises {s : State} {a b t : Operand} {x y : Word} {d : Nat} {c : Cause}
    {f : Word → Word → Except Cause Word} (ha : ReadsAs s 1 a x) (hb : ReadsAs s 2 b y) (ht : TargetsAt s 3 t d)
    (hf : f x y = .error c) : complete s (readReadWrite s a b t f) = Raises s c := by
  have hreads : readTwo s a b = .ok (x, y) := readTwo_ok.2 ⟨readOperand_ok.2 ha, readOperand_ok.2 hb⟩
  exact complete_of_error (readReadWrite_error.2 (.inr ⟨x, y, hreads, .inr ⟨d, writeTarget_ok.2 ht, .inl hf⟩⟩))

/-- The three clauses of R82 are the three branches of `narrow`: the result fits, the policy faults, the policy wraps. -/
theorem integerLaw_of_narrow {s : State} {a b t : Operand} {x y : Word} {d : Nat} {op : ArithOp} {i : Instr}
    {result : Word → Word → Int} (ha : ReadsAs s 1 a x) (hb : ReadsAs s 2 b y) (ht : TargetsAt s 3 t d)
    (hi : exec i s = complete s (readReadWrite s a b t fun u v => narrow s.params op u v (result u v))) :
    IntegerLaw s i op x y (result x y) d := by
  unfold IntegerLaw
  rw [hi]
  refine ⟨fun hfits hn => ?_, fun hfits hp => ?_, fun _ hp hn => ?_⟩
  · have hfits : fits64 (result x y) = true := fits64_iff.2 hfits
    exact ⟨_, toInt_wrap64 hfits, complete_readReadWrite_stores ha hb ht (narrow_ok.2 ⟨.inl hfits, rfl⟩) hn⟩
  · have hfits : fits64 (result x y) = false := Bool.eq_false_iff.2 (mt fits64_iff.1 hfits)
    exact complete_readReadWrite_raises ha hb ht (narrow_error.2 ⟨hfits, hp, rfl⟩)
  · exact ⟨_, toInt_wrap64_emod _, complete_readReadWrite_stores ha hb ht (narrow_ok.2 ⟨.inr hp, rfl⟩) hn⟩

/-- Settles O16: ADD and MUL are the two instances of `integerLaw_of_narrow`; that the overflow keeps the rest of the state is
decision D6 (log entry 6). -/
theorem addAndMulObeyTheIntegerLaw : Obligations.AddAndMulObeyTheIntegerLaw :=
  fun _ _ _ _ _ _ _ ha hb ht =>
    ⟨integerLaw_of_narrow (result := fun x y => x.toInt + y.toInt) ha hb ht rfl,
      integerLaw_of_narrow (result := fun x y => x.toInt * y.toInt) ha hb ht rfl⟩

end Sys2Proof.Machine

/-! PROOFS. The family `42_io.md`: the next states of IN and OUT, and the pause of an IN on an empty queue as every execution
command sees it. -/

namespace Sys2Proof.Machine

/-! ### One value moved (R86, R87) -/

section Moved
variable {s : State}

theorem seqPC_of_nextFits {n : Nat} (h : NextFits s n) : seqPC s n = .ok (nextPC s n) :=
  seqPC_ok.2 ⟨fits64_iff.2 h, rfl⟩

theorem takeInput_of_targetsAt {t : Operand} {v : Word} {d : Nat} (ht : TargetsAt s 1 t d) (hn : NextFits s 1) :
    takeInput s t v = .ok { keepBut s (nextPC s 1) with mem := some (d, v), deq := true } :=
  takeInput_ok.2 ⟨d, _, writeTarget_ok.2 ht, seqPC_of_nextFits hn, rfl⟩

theorem emitOutput_of_readsAs {a : Operand} {x : Word} (ha : ReadsAs s 1 a x) (hn : NextFits s 1) :
    emitOutput s a = .ok { keepBut s (nextPC s 1) with out := some (s.pc, x) } :=
  emitOutput_ok.2 ⟨x, _, readOperand_ok.2 ha, seqPC_of_nextFits hn, rfl⟩

end Moved

/-- Settles O18: the effect record dequeues, and the tail of the queue is what stood behind its head. -/
theorem inWritesTheHeadOfTheQueue : Obligations.InWritesTheHeadOfTheQueue := by
  intro s t v q d hq ht hn
  have hexec : exec (.input t) s = complete s (takeInput s t v) := by simp only [exec, execInput, hq]
  rw [hexec, takeInput_of_targetsAt ht hn]
  simp [complete, commit, keepBut, hq]

/-- Settles O19: the commit of the effect record `emitOutput` answers. -/
theorem outAppendsItsAddressAndValue : Obligations.OutAppendsItsAddressAndValue := by
  intro s a x ha hn
  have hexec : exec (.output a) s = complete s (emitOutput s a) := rfl
  rw [hexec, emitOutput_of_readsAs ha hn]
  rfl

/-! ### The pause on an empty queue (R85) -/

/-- No parameter is resolved before the pause, so the target's mode does not matter. -/
theorem exec_input_of_inq_nil {s : State} (t : Operand) (h : s.inq = []) : exec (.input t) s = .next s := by
  simp only [exec, execInput, h, pause]

section Paused
variable {s : State} (hwait : awaitingInput s = true)
include hwait

/-- The other two ends of `Step`, a fault taken and an effect committed, are those of a state that does not await input. -/
theorem cycle_of_awaitingInput : cycle s = .next s := by
  rcases cycle_cases s with ⟨-, -, hnot⟩ | ⟨hpause, -⟩ | ⟨-, -, -, -, -, hnot⟩
  · exact absurd hwait (Bool.eq_false_iff.1 hnot)
  · exact hpause
  · exact absurd hwait (Bool.eq_false_iff.1 hnot)

theorem stepResult_of_awaitingInput : stepResult s = (.paused, s) := by
  simp only [stepResult, cycle_of_awaitingInput hwait, hwait, if_true]

/-- A run command that answers a pause stops at its first step, with nothing changed (R107 to R109). -/
theorem runCommand_of_awaitingInput {answer : StepResult → State → Option Response} {r : Response} (hrun : Runnable s)
    (hr : answer .paused s = some r) (fuel : Nat) : runCommand answer (fuel + 1) s = some (r, s) := by
  simp only [runCommand_succ hrun, stepResult_of_awaitingInput hwait, hr]

end Paused

/-- A value queued by the host lifts the pause: the queue behind it is not empty (R103). -/
theorem awaitingInput_hostQueueInput (v : Word) (s : State) : awaitingInput (hostQueueInput v s).2 = false := by
  refine Bool.eq_false_iff.2 fun h => ?_
  obtain ⟨-, -, -, hq⟩ := awaitingInput_iff.1 h
  exact List.append_ne_nil_of_right_ne_nil s.inq (List.cons_ne_nil v []) hq

/-- Settles O31: the hypotheses are `awaitingInput`, under which `Step` pauses; each command then answers that pause. -/
theorem inPausesOnAnEmptyQueue : Obligations.InPausesOnAnEmptyQueue := by
  intro s fuel hrun hpc hsign hid hq
  have hwait : awaitingInput s = true := awaitingInput_iff.2 ⟨hpc, hsign, hid, hq⟩
  obtain ⟨-, hpaused, -⟩ := hostStep_runnable hrun
  have hcommand : hostStep s = (.awaitingInput, s) := (hpaused s).2 (stepResult_of_awaitingInput hwait)
  exact ⟨step_next.2 ⟨hrun, cycle_of_awaitingInput hwait⟩, fun t => exec_input_of_inq_nil t hq, congrArg some hcommand,
    runCommand_of_awaitingInput hwait hrun rfl fuel, runCommand_of_awaitingInput hwait hrun rfl fuel,
    runCommand_of_awaitingInput hwait hrun rfl fuel, fun v => ⟨hwait, awaitingInput_hostQueueInput v s⟩⟩

end Sys2Proof.Machine

/-! PROOFS. The family `43_jump.md`: the two ends of the format `F2RR`, and the two conditional jumps as its instances. -/

namespace Sys2Proof.Machine

theorem nonZero_iff {x : Word} : nonZero x = true ↔ x.toInt ≠ 0 := decide_eq_true_iff

theorem nonZero_eq_false_iff {x : Word} : nonZero x = false ↔ x.toInt = 0 :=
  Bool.eq_false_iff.trans (nonZero_iff.not.trans not_not)

section Jump
variable {s : State} {a b : Operand} {x y : Word} {taken : Word → Bool} (ha : ReadsAs s 1 a x) (hb : ReadsAs s 2 b y)
include ha hb

/-- A taken jump asks nothing of its target and nothing of the next address (R88). -/
theorem complete_jumpWhen_taken (ht : taken x = true) :
    complete s (jumpWhen s a b taken) = .next { s with pc := y } := by
  rw [jumpWhen_ok.2 ⟨x, y, readOperand_ok.2 ha, readOperand_ok.2 hb, .inl ⟨ht, rfl⟩⟩]
  rfl

theorem complete_jumpWhen_not_taken (hn : NextFits s 2) (ht : taken x = false) :
    complete s (jumpWhen s a b taken) = .next { s with pc := nextPC s 2 } := by
  rw [jumpWhen_ok.2 ⟨x, y, readOperand_ok.2 ha, readOperand_ok.2 hb, .inr ⟨ht, _, seqPC_of_nextFits hn, rfl⟩⟩]
  rfl

end Jump

/-- Settles O20: JUMP-IF-TRUE is the jump taken on `nonZero`, JUMP-IF-FALSE the one taken on its negation. -/
theorem conditionalJumpsTestForZero : Obligations.ConditionalJumpsTestForZero := by
  intro s a b x y ha hb
  have htrue : exec (.jumpIfTrue a b) s = complete s (jumpWhen s a b nonZero) := rfl
  have hfalse : exec (.jumpIfFalse a b) s = complete s (jumpWhen s a b fun v => !nonZero v) := rfl
  rw [htrue, hfalse]
  refine ⟨fun hx => ?_, fun hx => ?_, fun hn hx => ?_, fun hn hx => ?_⟩
  · exact complete_jumpWhen_taken ha hb (nonZero_iff.2 hx)
  · exact complete_jumpWhen_taken ha hb (by rw [nonZero_eq_false_iff.2 hx, Bool.not_false])
  · exact complete_jumpWhen_not_taken ha hb hn (nonZero_eq_false_iff.2 hx)
  · exact complete_jumpWhen_not_taken ha hb hn (by rw [nonZero_iff.2 hx, Bool.not_true])

end Sys2Proof.Machine

/-! PROOFS. The family `44_comparison.md`: the result word of R91, proved once for every instruction of the format `F3RRW`
whose handler tests a decidable relation. -/

namespace Sys2Proof.Machine

theorem truthWord_of_holds {p : Prop} [Decidable p] (h : p) : truthWord (decide p) = 1 := if_pos (decide_eq_true h)

theorem truthWord_of_not {p : Prop} [Decidable p] (h : ¬p) : truthWord (decide p) = 0 :=
  if_neg (mt of_decide_eq_true h)

/-- The two clauses of R91 are the two branches of `truthWord`: the relation holds between the values read, or it does not. -/
theorem stores_truthWord {s : State} {a b t : Operand} {x y : Word} {d : Nat} {i : Instr} {holds : Word → Word → Prop}
    [DecidableRel holds] (ha : ReadsAs s 1 a x) (hb : ReadsAs s 2 b y) (ht : TargetsAt s 3 t d) (hn : NextFits s 3)
    (hi : exec i s = complete s (readReadWrite s a b t fun u v => .ok (truthWord (decide (holds u v))))) :
    (holds x y → exec i s = Stores s d 1) ∧ (¬holds x y → exec i s = Stores s d 0) := by
  rw [hi]
  refine ⟨fun h => ?_, fun h => ?_⟩
  · exact complete_readReadWrite_stores ha hb ht (congrArg Except.ok (truthWord_of_holds h)) hn
  · exact complete_readReadWrite_stores ha hb ht (congrArg Except.ok (truthWord_of_not h)) hn

/-- Settles O17: LESS-THAN and EQUALS are the two instances of `stores_truthWord`. -/
theorem comparisonsWriteOneOrZero : Obligations.ComparisonsWriteOneOrZero := by
  intro s a b t x y d ha hb ht hn
  obtain ⟨hless, hnotLess⟩ :=
    stores_truthWord (i := .lessThan a b t) (holds := fun u v => u.toInt < v.toInt) ha hb ht hn rfl
  obtain ⟨hequal, hnotEqual⟩ :=
    stores_truthWord (i := .equals a b t) (holds := fun u v => u.toInt = v.toInt) ha hb ht hn rfl
  exact ⟨hless, hnotLess, hequal, hnotEqual⟩

end Sys2Proof.Machine

/-! PROOFS. The family `45_control.md`: HALT, and ADJUST-BASE by the three branches of `narrow`. -/

namespace Sys2Proof.Machine

/-! ### HALT (R94) -/

theorem haltEffect_of_nextFits {s : State} (hn : NextFits s 0) :
    haltEffect s = .ok { keepBut s (nextPC s 0) with halted := true } :=
  haltEffect_ok.2 ⟨_, seqPC_of_nextFits hn, rfl⟩

/-- Settles O21: the commit of the effect record `haltEffect` answers; that `PC` is `pc0 + 1` is the spec's derivation (U10,
log entry 7). -/
theorem haltSetsHalted : Obligations.HaltSetsHalted := by
  intro s hn
  have hexec : exec .halt s = complete s (haltEffect s) := rfl
  rw [hexec, haltEffect_of_nextFits hn]
  rfl

/-! ### ADJUST-BASE (R95) -/

section AdjustBase
variable {s : State} {a : Operand} {x : Word} (ha : ReadsAs s 1 a x)
include ha

/-- The operand was read with the old `RB`, and the narrowed sum is all that `RB` becomes. -/
theorem exec_adjustBase_of_narrow_ok {r : Word}
    (hr : narrow s.params .adjustBase s.rb x (s.rb.toInt + x.toInt) = .ok r) (hn : NextFits s 1) :
    exec (.adjustBase a) s = .next { s with rb := r, pc := nextPC s 1 } := by
  have hexec : exec (.adjustBase a) s = complete s (adjustEffect s a) := rfl
  rw [hexec, adjustEffect_ok.2 ⟨x, r, _, readOperand_ok.2 ha, hr, seqPC_of_nextFits hn, rfl⟩]
  rfl

/-- The overflow is reported before the next address is looked at (R78). -/
theorem exec_adjustBase_of_narrow_error {c : Cause}
    (hc : narrow s.params .adjustBase s.rb x (s.rb.toInt + x.toInt) = .error c) :
    exec (.adjustBase a) s = Raises s c :=
  complete_of_error (adjustEffect_error.2 (.inr ⟨x, readOperand_ok.2 ha, .inl hc⟩))

end AdjustBase

/-- Settles O22: the sum fits, the policy faults, or the policy wraps; that the overflow keeps the rest of the state is
decision D6 (log entry 6). -/
theorem adjustBaseAddsToTheRelativeBase : Obligations.AdjustBaseAddsToTheRelativeBase := by
  refine fun s a x ha => ⟨fun hfits hn => ?_, fun hfits hp => ?_, fun _ hp hn => ?_⟩
  · have hfits : fits64 (s.rb.toInt + x.toInt) = true := fits64_iff.2 hfits
    exact ⟨_, toInt_wrap64 hfits, exec_adjustBase_of_narrow_ok ha (narrow_ok.2 ⟨.inl hfits, rfl⟩) hn⟩
  · have hfits : fits64 (s.rb.toInt + x.toInt) = false := Bool.eq_false_iff.2 (mt fits64_iff.1 hfits)
    exact exec_adjustBase_of_narrow_error ha (narrow_error.2 ⟨hfits, hp, rfl⟩)
  · exact ⟨_, toInt_wrap64_emod _, exec_adjustBase_of_narrow_ok ha (narrow_ok.2 ⟨.inr hp, rfl⟩) hn⟩

end Sys2Proof.Machine

/-! PROOFS. The family `46_host_control.md`: every command keeps the invariant, what the guard, STEP and the run commands
answer, the memory and load commands, and the grammar of LOAD_TEXT. -/

namespace Sys2Proof.Machine

/-! ### The invariant under the commands (R96 to R100) -/

theorem inv_loadedState {p : Params} {ws : List Word} (h : ws.length ≤ p.maxAddr.val + 1) :
    State.Inv (loadedState p ws) :=
  ⟨Memory.ofWords_wf ws, Memory.ofWords_within h, fun hboth => Bool.false_ne_true hboth.1, h⟩

theorem hostLoadWords_some {p : Params} {ws : List Word} {r : Response} {s : State} :
    hostLoadWords p ws = (r, some s) ↔ ws.length ≤ p.maxAddr.val + 1 ∧ r = .ok .unit ∧ s = loadedState p ws := by
  unfold hostLoadWords
  split_ifs with h <;> simp [h, eq_comm]

theorem hostLoadText_some {p : Params} {text : List Char} {r : Response} {s : State}
    (h : hostLoadText p text = (r, some s)) : ∃ ws, hostLoadWords p ws = (r, some s) := by
  unfold hostLoadText at h
  cases hp : parseProgram text with
  | none => simp [hp] at h
  | some ws => exact ⟨ws, by simpa only [hp] using h⟩

/-- RESET leaves the state LOAD_WORDS made of the same origin (R30, R100). -/
theorem hostReset_eq (s : State) : hostReset s = (.ok .unit, loadedState s.params s.origin) := rfl

theorem inv_of_hostLoadWords {p : Params} {ws : List Word} {r : Response} {s : State}
    (h : hostLoadWords p ws = (r, some s)) : State.Inv s := by
  obtain ⟨hlen, -, rfl⟩ := hostLoadWords_some.1 h
  exact inv_loadedState hlen

/-- The four ways a command writes the state each keep the invariant: RESET, POKE in range, queued input, and steps. -/
theorem issue_inv {fuel : Nat} {c : Command} {s s' : State} {r : Response} (h : issue fuel c s = some (r, s'))
    (hinv : State.Inv s) : State.Inv s' := by
  refine issue_keeps (P := fun t => State.Inv t) ?reset ?poke ?queue stepKeepsTheInvariant h hinv
  case reset =>
    rintro t ⟨-, -, -, horigin⟩
    exact inv_loadedState horigin
  case poke =>
    rintro t a v ⟨hwf, hin, hflags, horigin⟩ ha
    exact ⟨Memory.write_wf hwf _ v, Memory.write_within hin (Int.toNat_le.2 ha.2) v, hflags, horigin⟩
  case queue => exact fun t vs ht => ht

/-- Settles O42: a command by the induction packaged in `issue_keeps`, a load by the memory it lays out; the memory a fault
keeps is decision D6. -/
theorem everyInstanceKeepsTheInvariant : Obligations.EveryInstanceKeepsTheInvariant := by
  refine ⟨fun fuel c s s' r hinv h => issue_inv h hinv, fun p ws s r => inv_of_hostLoadWords, fun p text s r h => ?_⟩
  obtain ⟨ws, hws⟩ := hostLoadText_some h
  exact inv_of_hostLoadWords hws

/-- Settles O57: the load establishes the invariant and each command of the list keeps it. -/
theorem everyCommandSequenceKeepsTheInvariant : Obligations.EveryCommandSequenceKeepsTheInvariant := by
  intro p ws s s' r cs rs hload hcs
  exact issueAll_keeps (P := fun t => State.Inv t) (fun _ _ _ _ _ => issue_inv) hcs (inv_of_hostLoadWords hload)

/-! ### The guard (R105) -/

theorem guardFault_alreadyHalted {s : State} : guardFault s = some .alreadyHalted ↔ s.halted = true := by
  unfold guardFault
  cases s.halted <;> cases s.fault <;> simp

theorem guardFault_faulted {s : State} {f : FaultRecord} :
    guardFault s = some (.faulted f) ↔ s.halted = false ∧ s.fault = some f := by
  unfold guardFault
  cases s.halted <;> cases s.fault <;> simp

section Guard
variable {s : State} {f : Fault} (hg : guardFault s = some f)
include hg

theorem hostStep_of_guardFault : hostStep s = (guardResponse f, s) := by
  simp only [hostStep, hg]

theorem runCommand_of_guardFault (answer : StepResult → State → Option Response) (fuel : Nat) :
    runCommand answer fuel s = some (guardResponse f, s) := by
  simp only [runCommand, hg]

theorem issue_execution_of_guardFault {c : Command} (hc : c ∈ [Command.step, .run, .runToOutput, .runToInputWait])
    (fuel : Nat) : issue fuel c s = some (guardResponse f, s) := by
  simp only [List.mem_cons, List.not_mem_nil, or_false] at hc
  rcases hc with rfl | rfl | rfl | rfl
  · exact congrArg some (hostStep_of_guardFault hg)
  · exact runCommand_of_guardFault hg _ fuel
  · exact runCommand_of_guardFault hg _ fuel
  · exact runCommand_of_guardFault hg _ fuel

end Guard

/-- A fault is taken with `HALTED` clear, and an effect is committed with `FAULT` clear. -/
theorem step_not_halted_and_faulted {s s' : State} (h : step s = .next s') :
    ¬(s'.halted = true ∧ s'.fault.isSome = true) := by
  obtain ⟨⟨hhalted, hfault⟩, ⟨c, rfl, -⟩ | ⟨rfl, -⟩ | ⟨i, e, -, -, rfl, -⟩⟩ := step_cases h
  · simp [hhalted]
  · simp [hhalted]
  · simp [hfault]

/-- Settles O27: `guardFault` names the response, which `step` and the execution commands all begin with. -/
theorem guardStopsEveryExecutionCommand : Obligations.GuardStopsEveryExecutionCommand := by
  refine fun s fuel => ⟨fun hs => ?_, fun f hs hf => ?_, fun s' => step_not_halted_and_faulted⟩
  · have hg : guardFault s = some .alreadyHalted := guardFault_alreadyHalted.2 hs
    exact ⟨step_fault_of_guardFault hg, fun c hc => issue_execution_of_guardFault hg hc fuel⟩
  · have hg : guardFault s = some (.faulted f) := guardFault_faulted.2 ⟨hs, hf⟩
    exact ⟨step_fault_of_guardFault hg, fun c hc => issue_execution_of_guardFault hg hc fuel⟩

/-! ### STEP (R106) -/

theorem awaitingInput_false_of_stepResult {s : State} (h : (stepResult s).1 ≠ .paused) : awaitingInput s = false :=
  Bool.eq_false_iff.2 fun hwait => h (congrArg Prod.fst (stepResult_of_awaitingInput hwait))

/-- Settles O43: the guard's two responses, then the three results of `Step`, told apart by the pause predicate and
`FAULT`. -/
theorem stepCommandReportsTheStep : Obligations.StepCommandReportsTheStep := by
  refine fun s => ⟨fun hs => hostStep_of_guardFault (guardFault_alreadyHalted.2 hs),
    fun f hs hf => hostStep_of_guardFault (guardFault_faulted.2 ⟨hs, hf⟩), fun s' h => ?_⟩
  obtain ⟨hrun, hcycle⟩ := step_next.1 h
  obtain ⟨hdone, hpaused, hfaulted⟩ := hostStep_runnable hrun
  obtain rfl : (stepResult s).2 = s' := stepResult_snd hcycle
  rcases stepResult_cases s hrun.2 with ⟨c, hres⟩ | ⟨hres, hwait⟩ | ⟨i, e, hid, -, hres⟩
  · have hwait := awaitingInput_false_of_stepResult (s := s) (by simp [hres])
    rw [hres]
    exact ⟨_, (hfaulted _ _).2 hres, by simp [hwait], by simp, by simp⟩
  · rw [hres]
    exact ⟨_, (hpaused _).2 hres, by simp, by simp [hrun.2], by simp [hwait]⟩
  · have hwait := awaitingInput_false_of_stepResult (s := s) (by simp [hres])
    rw [hres]
    exact ⟨_, (hdone _ _).2 hres, by simp [hwait], by simp [hrun.2], by simp [hid]⟩

/-! ### A run command is its steps (R107 to R109) -/

section RunSteps
variable {answer : StepResult → State → Option Response} {s t : State} (hrun : Runnable s) (fuel : Nat)
include hrun

theorem runCommand_stops {x : StepResult} {r : Response} (hs : stepResult s = (x, t)) (ha : answer x t = some r) :
    runCommand answer (fuel + 1) s = some (r, t) := by
  simp only [runCommand_succ hrun, hs, ha]

theorem runCommand_of_hostStep_goesOn {id : Nat} (h : hostStep s = (.ok (.instrId id), t)) (hid : id ≠ 99)
    (ha : answer (.done id) t = none) : runCommand answer (fuel + 1) s = runCommand answer fuel t :=
  runCommand_goesOn hrun (((hostStep_runnable hrun).1 id t).1 h) hid ha

theorem runCommand_of_hostStep_stops {id : Nat} {r : Response} (h : hostStep s = (.ok (.instrId id), t))
    (ha : answer (.done id) t = some r) : runCommand answer (fuel + 1) s = some (r, t) :=
  runCommand_stops hrun fuel (((hostStep_runnable hrun).1 id t).1 h) ha

theorem runCommand_of_hostStep_awaitingInput {r : Response} (h : hostStep s = (.awaitingInput, t))
    (ha : answer .paused t = some r) : runCommand answer (fuel + 1) s = some (r, t) :=
  runCommand_stops hrun fuel (((hostStep_runnable hrun).2.1 t).1 h) ha

theorem runCommand_of_hostStep_faulted {f : FaultRecord} {r : Response} (h : hostStep s = (.faulted f, t))
    (ha : answer (.faulted f) t = some r) : runCommand answer (fuel + 1) s = some (r, t) :=
  runCommand_stops hrun fuel (((hostStep_runnable hrun).2.2 f t).1 h) ha

end RunSteps

/-! ### How a run command ends (R113) -/

/-- What ended a run that answered `r` in the state `s'`, started in `s`, with `P` of the state before its last step: the
guard, a fault, a pause, or an instruction executed. -/
inductive RunEnd (answer : StepResult → State → Option Response) (P : State → Prop) (s s' : State) (r : Response) : Prop
  | guard (f : Fault) (hg : guardFault s = some f) (hr : r = guardResponse f) (hs : s' = s)
  | faulted (f : FaultRecord) (hf : s'.fault = some f) (ha : answer (.faulted f) s' = some r)
  | paused (hP : P s') (hrun : Runnable s') (hwait : awaitingInput s' = true) (ha : answer .paused s' = some r)
  | done (t : State) (id : Nat) (hP : P t) (hrun : Runnable t) (hs : stepResult t = (.done id, s'))
    (ha : answer (.done id) s' = some r)

theorem runCommand_end {answer : StepResult → State → Option Response} (goes : GoesOnOnlyWhenDone answer)
    {P : State → Prop}
    (keeps : ∀ u id u', P u → Runnable u → stepResult u = (.done id, u') → answer (.done id) u' = none → P u')
    {fuel : Nat} {s s' : State} {r : Response} (hs : P s) (h : runCommand answer fuel s = some (r, s')) :
    RunEnd answer P s s' r := by
  rcases runCommand_last goes keeps hs h with ⟨f, hg, hr, hs'⟩ | ⟨t, hP, hrun, rfl, ha⟩
  · exact .guard f hg hr hs'
  · rcases stepResult_cases t hrun.2 with ⟨c, hres⟩ | ⟨hres, hwait⟩ | ⟨i, e, -, -, hres⟩
    · rw [hres] at ha ⊢
      exact .faulted _ rfl ha
    · rw [hres] at ha ⊢
      exact .paused hP hrun hwait ha
    · rw [hres] at ha ⊢
      exact .done t _ hP hrun hres ha

theorem inq_of_awaitingInput {s : State} (h : awaitingInput s = true) : s.inq = [] :=
  (awaitingInput_iff.1 h).2.2.2

/-- A run whose last step is HALT has ended well. -/
theorem endsWell_of_stepResult_halt {s s' : State} (hrun : Runnable s) (h : stepResult s = (.done 99, s')) :
    EndsWell s' := by
  obtain ⟨hfault, hhalted⟩ := stepResult_done hrun.1 hrun.2 h
  exact ⟨hhalted.2 rfl, hfault⟩

/-! ### RUN (R107) -/

theorem runAnswer_done {id : Nat} (h : id ≠ 99) (s : State) : runAnswer (.done id) s = none := if_neg h

theorem runAnswer_done_some {id : Nat} {s : State} {r : Response} :
    runAnswer (.done id) s = some r ↔ id = 99 ∧ r = .ok (.word (Memory.read s.mem 0)) := by
  simp only [runAnswer, Opcode.id]
  split_ifs with h <;> simp [h, eq_comm]

/-- Settles O45: each result of a step by what `runAnswer` makes of it, and each answer by how the run can have ended. -/
theorem runAnswersOnlyWhatHappened : Obligations.RunAnswersOnlyWhatHappened := by
  refine ⟨fun fuel s t hrun => ⟨fun id h => ⟨fun hid => ?_, ?_⟩, fun h => ?_, fun f h => ?_⟩, fun fuel s s' r h => ?_⟩
  · exact runCommand_of_hostStep_goesOn hrun fuel h hid (runAnswer_done hid t)
  · rintro rfl
    exact runCommand_of_hostStep_stops hrun fuel h rfl
  · exact runCommand_of_hostStep_awaitingInput hrun fuel h rfl
  · exact runCommand_of_hostStep_faulted hrun fuel h rfl
  · cases runCommand_end (P := fun _ => True) runAnswer_goesOn (fun _ _ _ _ _ _ _ => trivial) trivial h with
    | guard f hg hr hs =>
      subst hs hr
      cases f with
      | alreadyHalted => simp [guardResponse, guardFault_alreadyHalted.1 hg]
      | faulted f => simp [guardResponse, (guardFault_faulted.1 hg).2]
    | faulted f hf ha =>
      cases ha
      simp [hf]
    | paused hP hrun hwait ha =>
      cases ha
      simp [hwait, inq_of_awaitingInput hwait]
    | done t id hP hrun hs ha =>
      obtain ⟨rfl, rfl⟩ := runAnswer_done_some.1 ha
      simp [EndsWell, endsWell_of_stepResult_halt hrun hs]

/-! ### RUN_TO_OUTPUT (R108) -/

/-- Of the instructions that execute, OUT alone appends to the log, its own address first (R26, R87). -/
theorem stepResult_done_outlog {s t : State} {id : Nat} (hrun : Runnable s) (h : stepResult s = (.done id, t)) :
    (id ≠ 4 → t.outlog = s.outlog) ∧ (id = 4 → ∃ v, t.outlog = s.outlog ++ [(s.pc, v)]) := by
  rcases stepResult_cases s hrun.2 with ⟨c, hres⟩ | ⟨hres, -⟩ | ⟨i, e, -, he, hres⟩ <;> rw [hres] at h <;> cases h
  refine ⟨fun hid => he.commit_outlog_eq fun hop => hid (by rw [hop]; rfl), fun hid => ?_⟩
  obtain ⟨v, hv⟩ := he.out_set (id_injective (op' := .output) hid)
  exact ⟨v, commit_outlog_some s e hv⟩

theorem runToOutputAnswer_output {s : State} {l : List (Word × Word)} {pos v : Word} (h : s.outlog = l ++ [(pos, v)]) :
    runToOutputAnswer (.done 4) s = some (.ok (.pair pos v)) := by
  simp [runToOutputAnswer, Opcode.id, h]

theorem runToOutputAnswer_done {id : Nat} (hout : id ≠ 4) (hhalt : id ≠ 99) (s : State) :
    runToOutputAnswer (.done id) s = none := by
  simp [runToOutputAnswer, Opcode.id, hout, hhalt]

/-- Settles O46: each result of a step by what `runToOutputAnswer` makes of it; a step the run goes on from leaves the log
as it was, so the pair answered is the one pair appended. -/
theorem runToOutputAnswersTheNextPair : Obligations.RunToOutputAnswersTheNextPair := by
  refine ⟨fun fuel s t hrun => ⟨fun id h => ⟨fun hout hhalt => ?_, ?_, ?_⟩, fun h => ?_, fun f h => ?_⟩,
    fun fuel s s' r h => ?_⟩
  · exact runCommand_of_hostStep_goesOn hrun fuel h hhalt (runToOutputAnswer_done hout hhalt t)
  · rintro rfl
    obtain ⟨v, hv⟩ := (stepResult_done_outlog hrun (((hostStep_runnable hrun).1 4 t).1 h)).2 rfl
    exact ⟨v, hv, runCommand_of_hostStep_stops hrun fuel h (runToOutputAnswer_output hv)⟩
  · rintro rfl
    exact runCommand_of_hostStep_stops hrun fuel h rfl
  · exact runCommand_of_hostStep_awaitingInput hrun fuel h rfl
  · exact runCommand_of_hostStep_faulted hrun fuel h rfl
  · have keeps : ∀ u id u', u.outlog = s.outlog → Runnable u → stepResult u = (.done id, u') →
        runToOutputAnswer (.done id) u' = none → u'.outlog = s.outlog := by
      intro u id u' hu hrun hs ha
      obtain ⟨hother, hout⟩ := stepResult_done_outlog hrun hs
      refine (hother ?_).trans hu
      rintro rfl
      obtain ⟨v, hv⟩ := hout rfl
      simp [runToOutputAnswer_output hv] at ha
    cases runCommand_end (P := fun t => t.outlog = s.outlog) runToOutputAnswer_goesOn keeps rfl h with
    | guard f hg hr hs =>
      subst hs hr
      cases f <;> simp [guardResponse]
    | faulted f hf ha =>
      cases ha
      simp
    | paused hP hrun hwait ha =>
      cases ha
      simp [hP, inq_of_awaitingInput hwait]
    | done t id hP hrun hs ha =>
      obtain ⟨hother, hout⟩ := stepResult_done_outlog hrun hs
      by_cases h4 : id = 4
      · subst h4
        obtain ⟨v, hv⟩ := hout rfl
        rw [runToOutputAnswer_output hv] at ha
        cases ha
        simp [hv, hP, (stepResult_done hrun.1 hrun.2 hs).1]
      · by_cases h99 : id = 99
        · subst h99
          cases ha
          simp [EndsWell, endsWell_of_stepResult_halt hrun hs, hother h4, hP]
        · simp [runToOutputAnswer_done h4 h99] at ha

/-! ### RUN_TO_INPUT_WAIT (R109) -/

theorem runToInputWaitAnswer_done {id : Nat} (h : id ≠ 99) (s : State) : runToInputWaitAnswer (.done id) s = none :=
  if_neg h

theorem runToInputWaitAnswer_done_some {id : Nat} {s : State} {r : Response} :
    runToInputWaitAnswer (.done id) s = some r ↔ id = 99 ∧ r = .ok (.bool false) := by
  simp only [runToInputWaitAnswer, Opcode.id]
  split_ifs with h <;> simp [h, eq_comm]

/-- Settles O47: each result of a step by what `runToInputWaitAnswer` makes of it; only a pause ends a run with `true`, only
HALT with `false`. -/
theorem runToInputWaitTellsPauseFromHalt : Obligations.RunToInputWaitTellsPauseFromHalt := by
  refine ⟨fun fuel s t hrun => ⟨fun id h => ⟨fun hid => ?_, ?_⟩, fun h => ?_, fun f h => ?_⟩, fun fuel s s' r h => ?_⟩
  · exact runCommand_of_hostStep_goesOn hrun fuel h hid (runToInputWaitAnswer_done hid t)
  · rintro rfl
    exact runCommand_of_hostStep_stops hrun fuel h rfl
  · exact runCommand_of_hostStep_awaitingInput hrun fuel h rfl
  · exact runCommand_of_hostStep_faulted hrun fuel h rfl
  · cases runCommand_end (P := fun _ => True) runToInputWaitAnswer_goesOn (fun _ _ _ _ _ _ _ => trivial) trivial h with
    | guard f hg hr hs =>
      subst hs hr
      cases f <;> simp [guardResponse]
    | faulted f hf ha =>
      cases ha
      simp
    | paused hP hrun hwait ha =>
      cases ha
      simp [hwait, inq_of_awaitingInput hwait, hrun.2]
    | done t id hP hrun hs ha =>
      obtain ⟨rfl, rfl⟩ := runToInputWaitAnswer_done_some.1 ha
      simp [EndsWell, endsWell_of_stepResult_halt hrun hs]

/-! ### Fuel (R112) -/

theorem runLoop_more {answer : StepResult → State → Option Response} {fuel : Nat} (more : Nat) {s : State}
    {q : Response × State} (h : runLoop answer fuel s = some q) : runLoop answer (fuel + more) s = some q := by
  induction fuel generalizing s with
  | zero => simp [runLoop] at h
  | succ fuel ih =>
    rw [Nat.succ_add]
    simp only [runLoop] at h ⊢
    cases ha : answer (stepResult s).1 (stepResult s).2 with
    | some r => simpa only [ha] using h
    | none =>
      simp only [ha] at h ⊢
      exact ih h

theorem runCommand_more {answer : StepResult → State → Option Response} {fuel : Nat} (more : Nat) {s : State}
    {q : Response × State} (h : runCommand answer fuel s = some q) : runCommand answer (fuel + more) s = some q := by
  unfold runCommand at h ⊢
  cases hg : guardFault s with
  | some f => simpa only [hg] using h
  | none =>
    simp only [hg] at h ⊢
    exact runLoop_more more h

/-- Settles O48: the run commands by `runCommand_more`; no other command looks at the fuel. -/
theorem moreFuelGivesTheSameResult : Obligations.MoreFuelGivesTheSameResult := by
  intro fuel more c s s' r h
  cases c with
  | run | runToOutput | runToInputWait => exact runCommand_more more h
  | reset | peek a | poke a v | queueInput v | queueInputs vs | readStatus | step | getLastOutput | getOutputs => exact h

/-! ### Memory access, load and reset (R98, R100 to R102) -/

theorem hostPeek_of_addressable {s : State} {a : Int} (h : Addressable s a) :
    hostPeek a s = (.ok (.word (Memory.read s.mem a.toNat)), s) :=
  if_pos (inRange_iff.2 h)

/-- Settles O7: the two branches of PEEK; an address no cell lists reads 0. -/
theorem peekAnswersTheWord : Obligations.PeekAnswersTheWord := by
  refine fun s a => ⟨hostPeek_of_addressable, fun h hfree => ?_, fun h => if_neg (mt inRange_iff.1 h)⟩
  have hread : Memory.read s.mem a.toNat = 0 :=
    Memory.read_unlisted fun c hc hca => hfree c hc (by rw [hca, Int.toNat_of_nonneg h.1])
  rw [hostPeek_of_addressable h, hread]

/-- A write at an address of the integers, read back at every address. -/
theorem Memory.read_write_toNat {m : Memory} (hwf : Memory.wf m) {a : Int} (ha : 0 ≤ a) (v : Word) (b : Nat) :
    Memory.read (Memory.write m a.toNat v) b = if (b : Int) = a then v else Memory.read m b := by
  have hba : b = a.toNat ↔ (b : Int) = a := by omega
  simp only [Memory.read_write hwf, hba]

/-- Settles O6: the two branches of POKE; the word written is what a read of its address gives, the fetch's among them. -/
theorem pokeWritesOneWordOrNothing : Obligations.PokeWritesOneWordOrNothing := by
  refine fun s a v hwf => ⟨fun h => ?_, fun h => if_neg (mt inRange_iff.1 h)⟩
  have hread := Memory.read_write_toNat hwf h.1 v
  refine ⟨Memory.write s.mem a.toNat v, if_pos (inRange_iff.2 h), hread, fun ws hf => ?_⟩
  obtain ⟨hpc, rfl⟩ := fetch_ok.1 hf
  rw [List.getD_cons_zero, hread, Int.toNat_of_nonneg hpc.1]

/-- The empty program's first step fetches the unwritten word 0 at address 0 (R68, R98). -/
theorem step_loadedState_nil (p : Params) :
    step (loadedState p []) = Raises (loadedState p []) (.unknownOpcode 0) := by
  obtain ⟨-, hfree⟩ := fetchChecksTheProgramCounter (loadedState p []) ⟨rfl, rfl⟩
  exact hfree ⟨Int.le_refl 0, Int.natCast_nonneg _⟩ fun c hc => absurd hc List.not_mem_nil

/-- Settles O8: the two branches of LOAD_WORDS; the empty program's STEP reports the fault of `step_loadedState_nil`. -/
theorem loadWordsLeavesTheResetState : Obligations.LoadWordsLeavesTheResetState := by
  refine fun p ws => ⟨fun h => ?_, fun h => if_neg h⟩
  refine ⟨loadedState p ws, if_pos h, rfl, rfl, Memory.read_ofWords ws, rfl, rfl, rfl, rfl, rfl, rfl, ?_⟩
  rintro rfl
  obtain ⟨-, -, hreport⟩ := stepCommandReportsTheStep (loadedState p [])
  obtain ⟨r, hstep, -, hfault, -⟩ := hreport _ (step_loadedState_nil p)
  rw [hstep]
  exact hfault _ rfl

/-- Settles O9: RESET leaves the loaded state of the origin; the canonical form of its memory is log entry 2. -/
theorem resetRestoresTheOrigin : Obligations.ResetRestoresTheOrigin := fun s =>
  ⟨loadedState s.params s.origin, hostReset_eq s, rfl, rfl, Memory.read_ofWords s.origin, Memory.ofWords_wf s.origin,
    rfl, rfl, rfl, rfl, rfl, rfl⟩

/-! ### Input and the queries (R103, R104, R110, R111) -/

/-- Settles O49: both append to the queue alone, and a queue with a value in it ends the pause. -/
theorem queuedInputGoesToTheTail : Obligations.QueuedInputGoesToTheTail := fun s v _ =>
  ⟨rfl, rfl, fun _ => awaitingInput_hostQueueInput v s⟩

theorem hostGetLastOutput_append {s : State} {l : List (Word × Word)} {q : Word × Word} (h : s.outlog = l ++ [q]) :
    hostGetLastOutput s = (.ok (.pair q.1 q.2), s) := by
  simp [hostGetLastOutput, h]

theorem hostGetLastOutput_nil {s : State} (h : s.outlog = []) : hostGetLastOutput s = (.err .noOutputYet, s) := by
  simp [hostGetLastOutput, h]

/-- Settles O50: the last output by whether the log is empty; the other two queries answer fields of the state. -/
theorem queriesReportAndChangeNothing : Obligations.QueriesReportAndChangeNothing := fun _ _ _ =>
  ⟨rfl, rfl, hostGetLastOutput_append, hostGetLastOutput_nil⟩

/-! ### The grammar of LOAD_TEXT (R99) -/

theorem digitValue_some {c : Char} {d : Nat} :
    digitValue c = some d ↔ (48 ≤ c.toNat ∧ c.toNat ≤ 57) ∧ d = c.toNat - 48 := by
  have h0 : '0'.toNat = 48 := rfl
  have h9 : '9'.toNat = 57 := rfl
  unfold digitValue
  split_ifs with h <;> simp_all [eq_comm]

/-- The value of the characters `ds` read as decimal digits on from `acc`, as `TokenDenotes` writes it. -/
def digitsFrom (acc : Int) (ds : List Char) : Int := ds.foldl (fun n c => 10 * n + ((c.toNat : Int) - 48)) acc

/-- `ds` is one or more decimal digits of the value `v`. -/
def DigitsDenote (ds : List Char) (v : Int) : Prop :=
  ds ≠ [] ∧ (∀ c ∈ ds, 48 ≤ c.toNat ∧ c.toNat ≤ 57) ∧ v = digitsFrom 0 ds

theorem readDigits_iff {acc : Nat} {ds : List Char} {v : Int} :
    (∃ n, readDigits acc ds = some n ∧ v = (n : Int)) ↔
      (∀ c ∈ ds, 48 ≤ c.toNat ∧ c.toNat ≤ 57) ∧ v = digitsFrom acc ds := by
  induction ds generalizing acc with
  | nil => simp [readDigits, digitsFrom]
  | cons c ds ih =>
    rw [List.forall_mem_cons, and_assoc]
    by_cases hc : 48 ≤ c.toNat ∧ c.toNat ≤ 57
    · have hread : readDigits acc (c :: ds) = readDigits (10 * acc + (c.toNat - 48)) ds := by
        simp only [readDigits, digitValue_some.2 ⟨hc, rfl⟩]
      have hacc : ((10 * acc + (c.toNat - 48) : Nat) : Int) = 10 * acc + ((c.toNat : Int) - 48) := by omega
      rw [hread, ih, hacc, and_iff_right hc]
      rfl
    · have hnone : digitValue c = none :=
        Option.eq_none_iff_forall_ne_some.2 fun d hd => hc (digitValue_some.1 hd).1
      simp [readDigits, hnone, hc]

theorem readNumber_iff {ds : List Char} {v : Int} :
    (∃ n, readNumber ds = some n ∧ v = (n : Int)) ↔ DigitsDenote ds v := by
  cases ds with
  | nil => simp [readNumber, DigitsDenote]
  | cons c ds => simp only [readNumber, readDigits_iff, DigitsDenote, ne_eq, reduceCtorEq, not_false_eq_true, true_and,
      Nat.cast_zero]

theorem fittingWord_some {v : Int} {w : Word} : fittingWord v = some w ↔ w.toInt = v := by
  unfold fittingWord
  constructor
  · intro h
    split_ifs at h with hfits
    cases h
    exact toInt_wrap64 hfits
  · rintro rfl
    have hfits : fits64 w.toInt = true := fits64_iff.2 ⟨BitVec.le_toInt w, by have := BitVec.toInt_lt (x := w); omega⟩
    rw [if_pos hfits, wrap64, BitVec.ofInt_toInt]

theorem tokenDenotes_iff {token : List Char} {w : Word} :
    TokenDenotes token w ↔ DigitsDenote token w.toInt ∨ ∃ ds, token = '-' :: ds ∧ DigitsDenote ds (-w.toInt) := by
  constructor
  · rintro ⟨ds, hne, hds, ⟨rfl, hw⟩ | ⟨rfl, hw⟩⟩
    · exact .inl ⟨hne, hds, hw⟩
    · exact .inr ⟨ds, rfl, hne, hds, by rw [hw, Int.neg_neg]; rfl⟩
  · rintro (⟨hne, hds, hw⟩ | ⟨ds, rfl, hne, hds, hw⟩)
    · exact ⟨token, hne, hds, .inl ⟨rfl, hw⟩⟩
    · exact ⟨ds, hne, hds, .inr ⟨rfl, (Int.neg_eq_comm.1 hw).symm⟩⟩

/-- Step 3 of R99: `readToken` answers the word a token denotes, and nothing on any other token. -/
theorem readToken_some {token : List Char} {w : Word} : readToken token = some w ↔ TokenDenotes token w := by
  have hminus : ∀ (ds : List Char) (v : Int), ¬DigitsDenote ('-' :: ds) v := fun ds v h =>
    absurd (h.2.1 '-' List.mem_cons_self).1 (by decide)
  rw [tokenDenotes_iff]
  unfold readToken
  split
  next rest =>
    rw [or_iff_right (hminus rest _)]
    simp only [List.cons.injEq, true_and, exists_eq_left', ← readNumber_iff]
    cases readNumber rest with
    | none => simp
    | some n =>
      have hneg : w.toInt = -(n : Int) ↔ -w.toInt = n := by omega
      simp [fittingWord_some, hneg]
  next hhead =>
    rw [or_iff_left (fun ⟨ds, hds, _⟩ => hhead ds hds), ← readNumber_iff]
    cases readNumber token with
    | none => simp
    | some n => simp [fittingWord_some]

theorem readTokens_cons {t : List Char} {ts : List (List Char)} {ws : List Word} :
    readTokens (t :: ts) = some ws ↔ ∃ w ws', readToken t = some w ∧ readTokens ts = some ws' ∧ ws = w :: ws' := by
  rw [readTokens]
  cases readToken t <;> cases readTokens ts <;> simp [eq_comm]

theorem readTokens_some {ts : List (List Char)} {ws : List Word} :
    readTokens ts = some ws ↔ List.Forall₂ TokenDenotes ts ws := by
  induction ts generalizing ws with
  | nil => simp [readTokens, eq_comm]
  | cons t ts ih => simp only [readTokens_cons, List.forall₂_cons_left_iff, readToken_some, ih]

theorem parseProgram_some {text body : List Char} {tokens : List (List Char)} (hbody : TrimsTo text body)
    (htokens : SplitsTo body tokens) {ws : List Word} :
    parseProgram text = some ws ↔ List.Forall₂ TokenDenotes tokens ws := by
  rw [parseProgram, trimsTo_iff.1 hbody, splitsTo_iff.1 htokens, readTokens_some]

/-- Settles O51: `trimText` and `splitTokens` give the one body and the one list of tokens, and the tokens are read exactly
where they denote words. -/
theorem loadTextAcceptsExactlyTheGrammar : Obligations.LoadTextAcceptsExactlyTheGrammar := by
  refine ⟨fun text => ⟨_, _, trimsTo_iff.2 rfl, splitsTo_iff.2 rfl⟩, fun p text body tokens hbody htokens => ⟨?_, ?_⟩⟩
  · intro ws hws
    simp only [hostLoadText, (parseProgram_some hbody htokens).2 hws]
  · intro hnone
    have hparse : parseProgram text = none :=
      Option.eq_none_iff_forall_ne_some.2 fun ws hws => hnone ⟨ws, (parseProgram_some hbody htokens).1 hws⟩
    simp only [hostLoadText, hparse]

end Sys2Proof.Machine

/-! PROOFS. The family `60_exceptions.md`: the state a step leaves when it takes a fault, and what the commands do with a
fault that is recorded. -/

namespace Sys2Proof.Machine

/-! ### Taking a fault (R116, R121) -/

/-- A step starts with no fault recorded, and neither a pause nor a commit records one: a record after it is that of
`raise`. -/
theorem step_next_faulted {s s' : State} {f : FaultRecord} (h : step s = .next s') (hf : s'.fault = some f) :
    f.pc = s.pc ∧ s' = { s with fault := some f } := by
  obtain ⟨⟨-, hnone⟩, ⟨c, rfl, -⟩ | ⟨rfl, -⟩ | ⟨i, e, -, -, rfl, -⟩⟩ := step_cases h
  · rw [raise_fault, Option.some.injEq] at hf
    subst hf
    exact ⟨rfl, rfl⟩
  · simp [hnone] at hf
  · simp [hnone] at hf

/-- Settles O33: the state after is that of `step_next_faulted`, and STEP answers its record (R106). -/
theorem executionFaultsArePrecise : Obligations.ExecutionFaultsArePrecise := by
  intro s s' f h hf
  obtain ⟨hpc, hs'⟩ := step_next_faulted h hf
  obtain ⟨-, -, hreport⟩ := stepCommandReportsTheStep s
  obtain ⟨r, hstep, -, hfaulted, -⟩ := hreport s' h
  exact ⟨hpc, hs', hfaulted f hf ▸ hstep⟩

/-! ### A recorded fault (R122) -/

/-- Settles O44: RESET clears the record, the guard stops the execution commands, and the other commands write memory and
the input queue at most. -/
theorem faultIsStickyUntilReset : Obligations.FaultIsStickyUntilReset := by
  intro fuel c s s' f r hs hf h
  by_cases hc : c ∈ [Command.step, .run, .runToOutput, .runToInputWait]
  · rw [issue_execution_of_guardFault (guardFault_faulted.2 ⟨hs, hf⟩) hc fuel] at h
    cases h
    exact ⟨fun _ => ⟨hf, rfl, rfl, rfl⟩, fun _ => ⟨rfl, rfl⟩, fun hreset => by simp [hreset] at hc⟩
  · refine ⟨fun hreset => ?_, fun hc' => absurd hc' hc, ?_⟩
    · obtain ⟨m, q, rfl⟩ := issue_writes_mem_inq hreset hc h
      exact ⟨hf, rfl, rfl, rfl⟩
    · rintro rfl
      cases h
      rfl

end Sys2Proof.Machine

/-! PROOFS. The family `70_reset_and_hazards.md`: RESET undoes whatever the commands did, so a run can be repeated. -/

namespace Sys2Proof.Machine

/-- Whatever the commands were, the instance keeps the origin and the parameters it was loaded with (R17). -/
theorem issueAll_origin_params {cs : List (Nat × Command)} {s s' : State} {rs : List Response}
    (h : issueAll cs s = some (rs, s')) : s'.origin = s.origin ∧ s'.params = s.params := by
  obtain ⟨-, hissue, -⟩ := onlyLoadWritesOrigin
  refine issueAll_keeps (P := fun t => t.origin = s.origin ∧ t.params = s.params) ?_ h ⟨rfl, rfl⟩
  rintro fuel c t t' r ht ⟨horigin, hparams⟩
  obtain ⟨horigin', hparams'⟩ := hissue fuel c t t' r ht
  exact ⟨horigin'.trans horigin, hparams'.trans hparams⟩

/-- RESET after any commands brings back the state LOAD_WORDS left (R98, R100): that state is made of the origin and the
parameters alone, and no command writes those. -/
theorem hostReset_of_issueAll_loadedState {p : Params} {ws : List Word} {cs : List (Nat × Command)} {s' : State}
    {rs : List Response} (h : issueAll cs (loadedState p ws) = some (rs, s')) :
    hostReset s' = (.ok .unit, loadedState p ws) := by
  obtain ⟨horigin, hparams⟩ := issueAll_origin_params h
  rw [hostReset_eq, horigin, hparams]
  rfl

/-- Settles O11: RESET brings back the loaded state, and from it the same commands are the same run; each command's fuel is
log entry 12. -/
theorem resetMakesRunsRepeatable : Obligations.ResetMakesRunsRepeatable := by
  intro p ws s s' r cs rs hload hcs
  obtain ⟨-, -, rfl⟩ := hostLoadWords_some.1 hload
  have hreset := hostReset_of_issueAll_loadedState hcs
  refine ⟨hreset, ?_⟩
  rw [hreset]
  exact hcs

end Sys2Proof.Machine
